-- ==== Sys2Proof/Word.lean ====
section
/-! DEFINITION. The widths of the core (R6: XLEN, AW, ILEN, NREG, FB_W, FB_H) as types.
All values are unsigned (R8); `+` and `-` on these types are the spec's `+8`, `-8`, `+12` (R9). -/

namespace Sys2Proof

/-- A byte: a `V` register or a memory cell (R6 `XLEN` = 8). -/
abbrev Byte := BitVec 8

/-- A 12-bit address: `pc`, `i`, `nnn`, a stack entry (R6 `AW` = 12). -/
abbrev Addr := BitVec 12

/-- An instruction word, 16 bits (R6 `ILEN` = 2 bytes; R91). -/
abbrev Word := BitVec 16

/-- A register number 0..15 (R21; R93: all sixteen values of `x` and `y` are legal). -/
abbrev Reg := Fin 16

/-- `VF`, the register that doubles as the flag (R10, R21, R28). -/
abbrev vF : Reg := 15

/-- A row of the display: 64 pixels, `true` is on (R41). -/
abbrev PixelRow := Vector Bool 64

/-- The display buffer `fb[r][c]`: 32 rows of 64 one-bit pixels (R41, R260). -/
abbrev Fb := Vector PixelRow 32

end Sys2Proof
end

