-- ==== Sys2Proof/Config.lean ====
section
/-! DEFINITION. The constants the source fixes (R6), the parameters it leaves open (R7), and the
free values: the environment's draws, constants with no body of which nothing can be proved. -/

namespace Sys2Proof

/-- `MEM_SIZE`: capacity of the addressable memory, in bytes (R6, R40). -/
def memSize : Nat := 4096

/-- `PROG_START`: program-start offset and reset value of `pc` (R6, R24, R371). -/
def progStart : Addr := 0x200

/-- `GLYPH_STRIDE`: bytes per font glyph (R6, R232). -/
def glyphStride : Nat := 5

/-- `NKEYS`: the logical keys are 0..15 (R6, R177). -/
def numKeys : Nat := 16

/-- `ADDR_OVERFLOW` (R7, D2): a carry out of bit 11 of `pc` or `i` wraps, or faults (R26, R35). -/
inductive AddrOverflow where
  | wrap12
  | faultOnCarry
deriving DecidableEq, Repr

/-- `LOGIC_VF` (R7, D7): what `8xy0` to `8xy3` leave in `VF` (R203). -/
inductive LogicVf where
  | anyByte
  | zero
  | untouched
deriving DecidableEq, Repr

/-- `KEY_OOR` (R7, D9): a key query for a number above 15 (R177). -/
inductive KeyOor where
  | fault
  | draw
  | mask4
deriving DecidableEq, Repr

/-- The parameters the source leaves open (R7). `stackDepth = none` is `unbounded`. -/
structure Params where
  addrOverflow : AddrOverflow
  stackDepth : Option Nat
  logicVf : LogicVf
  keyOor : KeyOor
  vReset : Vector Byte 16
  fbReset : Fb
deriving DecidableEq, Repr

/-- The display with every pixel off (R261; the default of `FB_RESET`, D15). -/
def Fb.clear : Fb := Vector.replicate 32 (Vector.replicate 64 false)

/-- The spec's own defaults of the parameters (R7).
DESIGN CHOICE (the spec's D2, D4, D7, D9, D14, D15; logs 2, 3, 6 to 9). -/
def Params.default : Params where
  addrOverflow := .wrap12
  stackDepth := none
  logicVf := .anyByte
  keyOor := .fault
  vReset := Vector.replicate 16 0
  fbReset := Fb.clear

/-- Free value: the byte of the `k`-th call of `RandomByte()` when none is injected (R44, D18; log 10). -/
opaque Config.freeRandom : Nat → Byte

/-- Free value: the host's answer to the `k`-th key query, for the number asked, when none is
injected (R177, R306, D29; log 11). -/
opaque Config.freeKey : Byte → Nat → Bool

/-- Free value: the `k`-th byte that `8xy0` to `8xy3` leave in `VF` under `AnyByte`, when none is
injected (R203, D7; log 8). -/
opaque Config.freeLogicVf : Nat → Byte

end Sys2Proof
end

