-- ==== Sys2Proof/Syntax.lean ====
section
/-! DEFINITION. The instruction set: one constructor per row of `opcode_table.json` (R100), in its
order, and the fields of an instruction word (R14, R92). -/

namespace Sys2Proof

/-- The fields extracted from every instruction word (R92). They overlap: `WellFormed.lean` holds
the law they obey. -/
structure Fields where
  op : BitVec 4
  x : BitVec 4
  y : BitVec 4
  n : BitVec 4
  nn : Byte
  nnn : Addr
deriving DecidableEq, Repr

/-- The 34 instructions (R100). `x`, `y` are register numbers, `nn` an immediate byte, `nnn` an
absolute address, and `n` a count of sprite rows 0..15 (R93). -/
inductive Instr where
  /-- `00E0` CLS -/
  | cls
  /-- `00EE` RET -/
  | ret
  /-- `1nnn` JP nnn -/
  | jp (nnn : Addr)
  /-- `2nnn` CALL nnn -/
  | call (nnn : Addr)
  /-- `3xnn` SE Vx, nn -/
  | seImm (x : Reg) (nn : Byte)
  /-- `4xnn` SNE Vx, nn -/
  | sneImm (x : Reg) (nn : Byte)
  /-- `5xy0` SE Vx, Vy -/
  | seReg (x y : Reg)
  /-- `6xnn` LD Vx, nn -/
  | ldImm (x : Reg) (nn : Byte)
  /-- `7xnn` ADD Vx, nn -/
  | addImm (x : Reg) (nn : Byte)
  /-- `8xy0` LD Vx, Vy -/
  | ldReg (x y : Reg)
  /-- `8xy1` OR Vx, Vy -/
  | or (x y : Reg)
  /-- `8xy2` AND Vx, Vy -/
  | and (x y : Reg)
  /-- `8xy3` XOR Vx, Vy -/
  | xor (x y : Reg)
  /-- `8xy4` ADD Vx, Vy -/
  | addReg (x y : Reg)
  /-- `8xy5` SUB Vx, Vy -/
  | sub (x y : Reg)
  /-- `8xy6` SHR Vx; `y` is encoded and ignored (R111; log 15) -/
  | shr (x y : Reg)
  /-- `8xy7` SUBN Vx, Vy -/
  | subn (x y : Reg)
  /-- `8xyE` SHL Vx; `y` is encoded and ignored (R111; log 15) -/
  | shl (x y : Reg)
  /-- `9xy0` SNE Vx, Vy -/
  | sneReg (x y : Reg)
  /-- `Annn` LD I, nnn -/
  | ldI (nnn : Addr)
  /-- `Bnnn` JP V0, nnn -/
  | jpV0 (nnn : Addr)
  /-- `Cxnn` RND Vx, nn -/
  | rnd (x : Reg) (nn : Byte)
  /-- `Dxyn` DRW Vx, Vy, n -/
  | drw (x y : Reg) (n : Fin 16)
  /-- `Ex9E` SKP Vx -/
  | skp (x : Reg)
  /-- `ExA1` SKNP Vx -/
  | sknp (x : Reg)
  /-- `Fx07` LD Vx, DT -/
  | ldVxDt (x : Reg)
  /-- `Fx0A` LD Vx, K -/
  | ldVxK (x : Reg)
  /-- `Fx15` LD DT, Vx -/
  | ldDtVx (x : Reg)
  /-- `Fx18` LD ST, Vx -/
  | ldStVx (x : Reg)
  /-- `Fx1E` ADD I, Vx -/
  | addI (x : Reg)
  /-- `Fx29` LD F, Vx -/
  | ldF (x : Reg)
  /-- `Fx33` LD B, Vx -/
  | ldB (x : Reg)
  /-- `Fx55` LD [I], Vx -/
  | ldMemVx (x : Reg)
  /-- `Fx65` LD Vx, [I] -/
  | ldVxMem (x : Reg)
deriving DecidableEq, Repr

end Sys2Proof
end

