-- ==== Sys2Proof/Decode.lean ====
section
/-! DEFINITION. The decoder, total on any bytes and rejecting by name (R90 to R94, R100 to R102,
R110, R132); after it the encoder (R120) and the opcode table itself (R94, R100), written from the
same tables but not from the decoder. -/

namespace Sys2Proof

/-- Why bytes are no instruction. `truncated`: fewer than two bytes (R90). The others name the
family of an illegal word (the rows of R110); the machine raises `IllegalInstruction(pc)` for each
(R335). -/
inductive DecodeError where
  | truncated
  | family0
  | family5
  | family8
  | family9
  | familyE
  | familyF
deriving DecidableEq, Repr

/-- A 4-bit field as a register number or a count (R93). -/
def regOf (b : BitVec 4) : Reg := ⟨b.toNat, b.isLt⟩

/-- `W = hi ++ lo`: the byte at the lower address is the high byte (R62, R91). -/
def wordOf (hi lo : Byte) : Word := hi ++ lo

/-- The fields of a word (R92). -/
def fieldsOf (w : Word) : Fields where
  op := w.extractLsb' 12 4
  x := w.extractLsb' 8 4
  y := w.extractLsb' 4 4
  n := w.extractLsb' 0 4
  nn := w.extractLsb' 0 8
  nnn := w.extractLsb' 0 12

/-- Family 0: only the two whole words `00E0` and `00EE` (R101, R102). -/
def decode0 (f : Fields) : Except DecodeError Instr :=
  if f.nnn = 0x0E0 then .ok .cls
  else if f.nnn = 0x0EE then .ok .ret
  else .error .family0

/-- Family 8: the low nibble selects the operation (R101, R200, R213). -/
def decode8 (f : Fields) : Except DecodeError Instr :=
  match f.n.toNat with
  | 0x0 => .ok (.ldReg (regOf f.x) (regOf f.y))
  | 0x1 => .ok (.or (regOf f.x) (regOf f.y))
  | 0x2 => .ok (.and (regOf f.x) (regOf f.y))
  | 0x3 => .ok (.xor (regOf f.x) (regOf f.y))
  | 0x4 => .ok (.addReg (regOf f.x) (regOf f.y))
  | 0x5 => .ok (.sub (regOf f.x) (regOf f.y))
  | 0x6 => .ok (.shr (regOf f.x) (regOf f.y))
  | 0x7 => .ok (.subn (regOf f.x) (regOf f.y))
  | 0xE => .ok (.shl (regOf f.x) (regOf f.y))
  | _ => .error .family8

/-- Family E: the low byte selects the key skip (R101). -/
def decodeE (f : Fields) : Except DecodeError Instr :=
  match f.nn.toNat with
  | 0x9E => .ok (.skp (regOf f.x))
  | 0xA1 => .ok (.sknp (regOf f.x))
  | _ => .error .familyE

/-- Family F: the low byte selects the instruction (R101). -/
def decodeF (f : Fields) : Except DecodeError Instr :=
  match f.nn.toNat with
  | 0x07 => .ok (.ldVxDt (regOf f.x))
  | 0x0A => .ok (.ldVxK (regOf f.x))
  | 0x15 => .ok (.ldDtVx (regOf f.x))
  | 0x18 => .ok (.ldStVx (regOf f.x))
  | 0x1E => .ok (.addI (regOf f.x))
  | 0x29 => .ok (.ldF (regOf f.x))
  | 0x33 => .ok (.ldB (regOf f.x))
  | 0x55 => .ok (.ldMemVx (regOf f.x))
  | 0x65 => .ok (.ldVxMem (regOf f.x))
  | _ => .error .familyF

/-- The decode procedure on the fields (R101). `op` has 16 values; the last arm is family F. -/
def decodeFields (f : Fields) : Except DecodeError Instr :=
  match f.op.toNat with
  | 0x0 => decode0 f
  | 0x1 => .ok (.jp f.nnn)
  | 0x2 => .ok (.call f.nnn)
  | 0x3 => .ok (.seImm (regOf f.x) f.nn)
  | 0x4 => .ok (.sneImm (regOf f.x) f.nn)
  | 0x5 => if f.n = 0 then .ok (.seReg (regOf f.x) (regOf f.y)) else .error .family5
  | 0x6 => .ok (.ldImm (regOf f.x) f.nn)
  | 0x7 => .ok (.addImm (regOf f.x) f.nn)
  | 0x8 => decode8 f
  | 0x9 => if f.n = 0 then .ok (.sneReg (regOf f.x) (regOf f.y)) else .error .family9
  | 0xA => .ok (.ldI f.nnn)
  | 0xB => .ok (.jpV0 f.nnn)
  | 0xC => .ok (.rnd (regOf f.x) f.nn)
  | 0xD => .ok (.drw (regOf f.x) (regOf f.y) (regOf f.n))
  | 0xE => decodeE f
  | _ => decodeF f

/-- `decode(W)`, total on all 65536 words (R101, R132). -/
def decode (w : Word) : Except DecodeError Instr := decodeFields (fieldsOf w)

/-- Decoding bytes as they stand in memory: two bytes, the first the high one (R62, R90), and the
bytes that are left. -/
def decodeBytes : List Byte → Except DecodeError (Instr × List Byte)
  | hi :: lo :: rest =>
    match decode (wordOf hi lo) with
    | .ok i => .ok (i, rest)
    | .error e => .error e
  | _ => .error .truncated

/-- A register number or a count as a 4-bit field. -/
def nibOf (k : Fin 16) : BitVec 4 := BitVec.ofNat 4 k.val

/-- Format XYS and XYN: `op x y n` (R94). -/
def packXY (op : BitVec 4) (x y : Reg) (n : BitVec 4) : Word := op ++ nibOf x ++ nibOf y ++ n

/-- Format XNN and XSS: `op x nn` (R94). -/
def packX (op : BitVec 4) (x : Reg) (nn : Byte) : Word := op ++ nibOf x ++ nn

/-- Format NNN: `op nnn` (R94). -/
def packN (op : BitVec 4) (nnn : Addr) : Word := op ++ nnn

/-- The word of an instruction: the literal nibbles of its pattern and its fields (R100, R120). -/
def encode : Instr → Word
  | .cls => 0x00E0
  | .ret => 0x00EE
  | .jp nnn => packN 0x1 nnn
  | .call nnn => packN 0x2 nnn
  | .seImm x nn => packX 0x3 x nn
  | .sneImm x nn => packX 0x4 x nn
  | .seReg x y => packXY 0x5 x y 0x0
  | .ldImm x nn => packX 0x6 x nn
  | .addImm x nn => packX 0x7 x nn
  | .ldReg x y => packXY 0x8 x y 0x0
  | .or x y => packXY 0x8 x y 0x1
  | .and x y => packXY 0x8 x y 0x2
  | .xor x y => packXY 0x8 x y 0x3
  | .addReg x y => packXY 0x8 x y 0x4
  | .sub x y => packXY 0x8 x y 0x5
  | .shr x y => packXY 0x8 x y 0x6
  | .subn x y => packXY 0x8 x y 0x7
  | .shl x y => packXY 0x8 x y 0xE
  | .sneReg x y => packXY 0x9 x y 0x0
  | .ldI nnn => packN 0xA nnn
  | .jpV0 nnn => packN 0xB nnn
  | .rnd x nn => packX 0xC x nn
  | .drw x y n => packXY 0xD x y (nibOf n)
  | .skp x => packX 0xE x 0x9E
  | .sknp x => packX 0xE x 0xA1
  | .ldVxDt x => packX 0xF x 0x07
  | .ldVxK x => packX 0xF x 0x0A
  | .ldDtVx x => packX 0xF x 0x15
  | .ldStVx x => packX 0xF x 0x18
  | .addI x => packX 0xF x 0x1E
  | .ldF x => packX 0xF x 0x29
  | .ldB x => packX 0xF x 0x33
  | .ldMemVx x => packX 0xF x 0x55
  | .ldVxMem x => packX 0xF x 0x65

/-- The high byte of a word, which stands at the lower address (R62). -/
def highByte (w : Word) : Byte := w.extractLsb' 8 8

/-- The low byte of a word (R62). -/
def lowByte (w : Word) : Byte := w.extractLsb' 0 8

/-- A word as it stands in memory (R62). -/
def wordBytes (w : Word) : List Byte := [highByte w, lowByte w]

/-- The bytes of an instruction in memory. -/
def encodeBytes (i : Instr) : List Byte := wordBytes (encode i)

/-- The word whose bits, numbered from bit 0 of the instruction word, are the low `nbits` bits of
`w`; bits above are zero (log 19). -/
def tableWord (nbits w : Nat) : Word := (BitVec.ofNat nbits w).setWidth 16

/-- The instruction the decoder reads from the bytes of `tableWord nbits w` (log 19). -/
def decodeTableWord (nbits w : Nat) : Option Instr :=
  match decodeBytes (wordBytes (tableWord nbits w)) with
  | .ok (i, _) => some i
  | .error _ => none

/-- A row of the opcode table: a word matches it when `W & mask == fixed` (R94, R100, R121). -/
structure Row where
  mnemonic : String
  fixed : Word
  mask : Word
deriving DecidableEq, Repr

/-- The match test of R94. -/
def Row.matches (r : Row) (w : Word) : Bool := w &&& r.mask == r.fixed

/-- Rows 1 to 9 of R100: families 0 to 7. -/
def tableFamilies0to7 : List Row :=
  [⟨"CLS", 0x00E0, 0xFFFF⟩, ⟨"RET", 0x00EE, 0xFFFF⟩, ⟨"JP", 0x1000, 0xF000⟩,
   ⟨"CALL", 0x2000, 0xF000⟩, ⟨"SE_VX_NN", 0x3000, 0xF000⟩, ⟨"SNE_VX_NN", 0x4000, 0xF000⟩,
   ⟨"SE_VX_VY", 0x5000, 0xF00F⟩, ⟨"LD_VX_NN", 0x6000, 0xF000⟩, ⟨"ADD_VX_NN", 0x7000, 0xF000⟩]

/-- Rows 10 to 18 of R100: the ALU family. -/
def tableFamily8 : List Row :=
  [⟨"LD_VX_VY", 0x8000, 0xF00F⟩, ⟨"OR", 0x8001, 0xF00F⟩, ⟨"AND", 0x8002, 0xF00F⟩,
   ⟨"XOR", 0x8003, 0xF00F⟩, ⟨"ADD_VX_VY", 0x8004, 0xF00F⟩, ⟨"SUB", 0x8005, 0xF00F⟩,
   ⟨"SHR", 0x8006, 0xF00F⟩, ⟨"SUBN", 0x8007, 0xF00F⟩, ⟨"SHL", 0x800E, 0xF00F⟩]

/-- Rows 19 to 25 of R100: families 9 to E. -/
def tableFamilies9toE : List Row :=
  [⟨"SNE_VX_VY", 0x9000, 0xF00F⟩, ⟨"LD_I_NNN", 0xA000, 0xF000⟩, ⟨"JP_V0_NNN", 0xB000, 0xF000⟩,
   ⟨"RND", 0xC000, 0xF000⟩, ⟨"DRW", 0xD000, 0xF000⟩, ⟨"SKP", 0xE09E, 0xF0FF⟩,
   ⟨"SKNP", 0xE0A1, 0xF0FF⟩]

/-- Rows 26 to 34 of R100: family F. -/
def tableFamilyF : List Row :=
  [⟨"LD_VX_DT", 0xF007, 0xF0FF⟩, ⟨"LD_VX_K", 0xF00A, 0xF0FF⟩, ⟨"LD_DT_VX", 0xF015, 0xF0FF⟩,
   ⟨"LD_ST_VX", 0xF018, 0xF0FF⟩, ⟨"ADD_I_VX", 0xF01E, 0xF0FF⟩, ⟨"LD_F_VX", 0xF029, 0xF0FF⟩,
   ⟨"LD_B_VX", 0xF033, 0xF0FF⟩, ⟨"LD_MEM_VX", 0xF055, 0xF0FF⟩, ⟨"LD_VX_MEM", 0xF065, 0xF0FF⟩]

/-- The opcode table (R100): 34 rows. -/
def opcodeTable : List Row :=
  tableFamilies0to7 ++ tableFamily8 ++ tableFamilies9toE ++ tableFamilyF

/-- The mnemonic of an instruction's row (R100, R121). -/
def Instr.mnemonic : Instr → String
  | .cls => "CLS"
  | .ret => "RET"
  | .jp _ => "JP"
  | .call _ => "CALL"
  | .seImm _ _ => "SE_VX_NN"
  | .sneImm _ _ => "SNE_VX_NN"
  | .seReg _ _ => "SE_VX_VY"
  | .ldImm _ _ => "LD_VX_NN"
  | .addImm _ _ => "ADD_VX_NN"
  | .ldReg _ _ => "LD_VX_VY"
  | .or _ _ => "OR"
  | .and _ _ => "AND"
  | .xor _ _ => "XOR"
  | .addReg _ _ => "ADD_VX_VY"
  | .sub _ _ => "SUB"
  | .shr _ _ => "SHR"
  | .subn _ _ => "SUBN"
  | .shl _ _ => "SHL"
  | .sneReg _ _ => "SNE_VX_VY"
  | .ldI _ => "LD_I_NNN"
  | .jpV0 _ => "JP_V0_NNN"
  | .rnd _ _ => "RND"
  | .drw _ _ _ => "DRW"
  | .skp _ => "SKP"
  | .sknp _ => "SKNP"
  | .ldVxDt _ => "LD_VX_DT"
  | .ldVxK _ => "LD_VX_K"
  | .ldDtVx _ => "LD_DT_VX"
  | .ldStVx _ => "LD_ST_VX"
  | .addI _ => "ADD_I_VX"
  | .ldF _ => "LD_F_VX"
  | .ldB _ => "LD_B_VX"
  | .ldMemVx _ => "LD_MEM_VX"
  | .ldVxMem _ => "LD_VX_MEM"

end Sys2Proof
end

