-- ==== Sys2Proof/Machine/State.lean ====
section
/-! DEFINITION. The state of the core (R20) with its parameters (R7) and the environment's draws
(R136), and the reset state (R47, R370). Plain data throughout. -/

namespace Sys2Proof.Machine

/-- The faults (R333), the values of the fault latch (R46). A step that meets a fault condition
takes the fault: the next state differs only in the latch (R340; log 1). The outcome
`Host.Outcome.fault f` is raised by `step` alone, on a machine whose latch already holds `f` (R343);
that is safe, since such a machine takes no step. -/
inductive Fault where
  /-- Raised by the fetch, `Dxyn`, `Fx33`, `Fx55` and `Fx65`; `addr` is the lowest effective address
  of 4096 or more (R334). Safe: nothing else changes. -/
  | outOfBounds (addr : Nat)
  /-- Raised by decode; `pc` is the address of the instruction's first byte (R335). Safe. -/
  | illegalInstruction (pc : Addr)
  /-- Raised by `00EE` on an empty stack (R336). Safe. -/
  | missingReturnAddress
  /-- Raised by `2nnn` when a finite `STACK_DEPTH` is reached (R37). Safe. -/
  | stackOverflow
  /-- Raised by `Ex9E` and `ExA1` when `V[x]` is above 15, under `KEY_OOR = Fault` (R177). Safe. -/
  | keyOutOfRange (k : Byte)
  /-- Raised by a write of `pc` or `i` above 4095, under `ADDR_OVERFLOW = FaultOnCarry`
  (R26, R35). Safe. -/
  | addressCarry
deriving DecidableEq, Repr

/-- Reasons to give no meaning. -/
inductive Refusal where
  /-- Raised by an arm of `exec` whose instruction has no meaning yet: no arm today. Safe. -/
  | notModelled (mnemonic : String)
deriving DecidableEq, Repr

/-- The output-only events of the timer and key-wait hooks (R295, R308; log 12). -/
inductive HookEvent where
  | readDelay (x : Reg)
  | waitKey (x : Reg)
  | writeDelay (x : Reg) (v : Byte)
  | writeSound (x : Reg) (v : Byte)
deriving DecidableEq, Repr

/-- A source of draws: the values injected by the host and not yet taken, first the next one, and
how many values were ever taken (R44, R306; logs 8, 10, 11). -/
structure Draws (α : Type) where
  supplied : List α
  taken : Nat
deriving DecidableEq, Repr

/-- The addressable memory as (address, byte) pairs, addresses strictly rising, no zero byte
(R40; `Memory.wf` in `Ops.lean`). An address that is not listed holds 0x00. -/
abbrev Memory := List Host.Cell

/-- The state of the core. The first eight fields are R20's tuple, `rng` the random-byte source of
R44; `cfg` holds the parameters of R7 (log 5); `keys`, `vfDraws` and `hooks` are the model's own
record of what crosses the boundary inside a step (R136; logs 8, 11, 12). -/
structure State where
  /-- `V[0..15]` (R21) -/
  v : Vector Byte 16
  /-- the program counter: the address of the instruction's first byte (R24) -/
  pc : Addr
  /-- the index register (R34) -/
  i : Addr
  /-- the call stack, the most recently pushed entry first (R36; log 22) -/
  stack : List Addr
  /-- the addressable memory (R40) -/
  mem : Memory
  /-- the display buffer (R41) -/
  fb : Fb
  /-- the fault latch (R46) -/
  fault : Option Fault
  /-- the random-byte source (R44) -/
  rng : Draws Byte
  /-- the host's answers to the key queries (R306) -/
  keys : Draws Bool
  /-- the draws of `LOGIC_VF = AnyByte` (R203) -/
  vfDraws : Draws Byte
  /-- the hook events emitted so far, oldest first (R295) -/
  hooks : List HookEvent
  /-- the implementation parameters, constant (R7) -/
  cfg : Params
deriving DecidableEq, Repr

/-- A source of which nothing is injected and nothing taken. -/
def Draws.fresh {α : Type} : Draws α := ⟨[], 0⟩

/-- The reset state under given parameters (R47, R370). -/
def State.resetWith (p : Params) : State where
  v := p.vReset
  pc := progStart
  i := 0
  stack := []
  mem := []
  fb := p.fbReset
  fault := none
  rng := Draws.fresh
  keys := Draws.fresh
  vfDraws := Draws.fresh
  hooks := []
  cfg := p

/-- The state right after reset, under the spec's default parameters (R7, R47, R370). -/
def State.reset : State := State.resetWith Params.default

end Sys2Proof.Machine
end

