-- ==== Sys2Proof/Machine/Ops.lean ====
section
/-! DEFINITION. The named operations over memory, registers, draws and the stack; taking a fault;
completing an instruction; fetching an instruction's bytes. -/

namespace Sys2Proof.Machine

/-- What an instruction or a step answers. -/
abbrev Result := Host.Outcome State Fault Refusal

/-! ## The addressable memory (R60, R61) -/

/-- What an address that is not listed holds: memory is "zero-initialized" (R40, R47). -/
def unlisted : Byte := 0

/-- The cells from `lo` on are in canonical form: addresses rise strictly, lie below the capacity,
and no byte is what an unlisted address holds. -/
def Memory.wfFrom (lo : Nat) : Memory → Bool
  | [] => true
  | (a, b) :: m => lo ≤ a && a < memSize && b != unlisted && Memory.wfFrom (a + 1) m

/-- The canonical form of a memory. -/
def Memory.wf (m : Memory) : Bool := Memory.wfFrom 0 m

/-- `mem[a]`. -/
def Memory.read : Memory → Nat → Byte
  | [], _ => unlisted
  | (b, w) :: m, a => if a = b then w else Memory.read m a

/-- A cell in front of a memory, left out when it holds what an unlisted address holds. -/
def Memory.cons (a : Nat) (v : Byte) (m : Memory) : Memory :=
  if v = unlisted then m else (a, v) :: m

/-- `mem[a] <- v`, keeping the canonical form. -/
def Memory.write : Memory → Nat → Byte → Memory
  | [], a, v => Memory.cons a v []
  | (b, w) :: m, a, v =>
    if a < b then Memory.cons a v ((b, w) :: m)
    else if a = b then Memory.cons a v m
    else (b, w) :: Memory.write m a v

/-- `mem[base + k] <- bytes[k]` for every `k`, ascending. -/
def Memory.writeAll (m : Memory) (base : Nat) : List Byte → Memory
  | [] => m
  | b :: bytes => Memory.writeAll (m.write base b) (base + 1) bytes

/-- `MemRead(addr, 1)` (R11, R60). -/
def memRead (s : State) (addr : Nat) : Except Fault Byte :=
  if addr < memSize then .ok (s.mem.read addr) else .error (.outOfBounds addr)

/-- `MemWrite(addr, 1, v)` (R11, R60). -/
def memWrite (s : State) (addr : Nat) (b : Byte) : Except Fault State :=
  if addr < memSize then .ok { s with mem := s.mem.write addr b } else .error (.outOfBounds addr)

/-- `n` reads at ascending effective addresses, which never wrap (R63, R64). The first address out
of bounds is the lowest one (R334). -/
def loadBytes (s : State) (base : Nat) : Nat → Except Fault (List Byte)
  | 0 => .ok []
  | n + 1 =>
    match memRead s base with
    | .error f => .error f
    | .ok b =>
      match loadBytes s (base + 1) n with
      | .error f => .error f
      | .ok bytes => .ok (b :: bytes)

/-- Writes at ascending effective addresses, which never wrap (R63, R64). On an error the writes
done so far are discarded with the state that held them: all or nothing (R67, R237; log 13). -/
def storeBytes (s : State) (base : Nat) : List Byte → Except Fault State
  | [] => .ok s
  | b :: bytes =>
    match memWrite s base b with
    | .error f => .error f
    | .ok t => storeBytes t (base + 1) bytes

/-- `BulkWrite(offset, bytes)`: none when it fails with `OutOfBounds`, writing nothing (R61). -/
def bulkWrite (m : Memory) (offset : Nat) (bytes : List Byte) : Option Memory :=
  if offset + bytes.length > memSize then none else some (m.writeAll offset bytes)

/-! ## Registers (R10, R21) -/

/-- `V[k]`. -/
def State.getV (s : State) (k : Reg) : Byte := s.v[k]

/-- `V[k] <- b`. -/
def State.setV (s : State) (k : Reg) (b : Byte) : State := { s with v := s.v.set k b }

/-! ## Draws (R13, R136) -/

/-- The next value of a source: the first injected one, or the free value of its number. -/
def Draws.value {α : Type} (free : Nat → α) (d : Draws α) : α :=
  match d.supplied with
  | [] => free d.taken
  | b :: _ => b

/-- The source after one value is taken. -/
def Draws.rest {α : Type} (d : Draws α) : Draws α := ⟨d.supplied.tail, d.taken + 1⟩

/-! ## Taking a fault (R12, R340) -/

/-- `raise f`: none of the instruction's effects happen, the latch takes the fault and its info,
and control goes nowhere (R12, R340; log 1). There is no return from a fault (R344). -/
def raise (f : Fault) (s : State) : Result := .next { s with fault := some f }

/-! ## Completing an instruction (R26, R134) -/

/-- The value a write of `pc` or `i` stores for the natural number `n`: `n` modulo 4096 under
`Wrap12`; under `FaultOnCarry` none when `n` exceeds 4095 (R26, R35; log 6). -/
def narrow (p : Params) (n : Nat) : Option Addr :=
  match p.addrOverflow with
  | .wrap12 => some (BitVec.ofNat 12 n)
  | .faultOnCarry => if n < memSize then some (BitVec.ofNat 12 n) else none

/-- End an instruction that began in `s` and whose other effects are in `t`, with `pc <- n`. A carry
that faults discards `t` (R26, R337). -/
def goto (s t : State) (n : Nat) : Result :=
  match narrow s.cfg n with
  | none => raise .addressCarry s
  | some a => .next { t with pc := a }

/-- End with `pc <- pc +12 2` (R134). -/
def advance (s t : State) : Result := goto s t (s.pc.toNat + 2)

/-- End a skip: `pc <- pc +12 4` if `c`, else `pc <- pc +12 2` (R134, R170). -/
def skipIf (s t : State) (c : Bool) : Result := goto s t (s.pc.toNat + if c then 4 else 2)

/-! ## The call stack (R36, R37) -/

/-- The stack holds `STACK_DEPTH` entries, and that is finite (R37; log 7). -/
def stackFull (s : State) : Bool :=
  match s.cfg.stackDepth with
  | none => false
  | some depth => depth ≤ s.stack.length

/-! ## Fetch (R131) -/

/-- The bytes of the instruction at `pc` and `pc + 1`. The second address does not wrap: at `pc` =
0xFFF the fetch is out of bounds at 4096 (R64, R131). No side effect. -/
def fetch (s : State) : Except Fault (List Byte) := loadBytes s s.pc.toNat 2

end Sys2Proof.Machine
end

