-- ==== Sys2Proof/Machine/Flags.lean ====
section
/-! DEFINITION. Every flag computation (R28, R29): the value is the byte 0x00 or 0x01, in `VF`. -/

namespace Sys2Proof.Machine

/-- `b2n` as a flag byte (R9, R28). -/
def flagByte (c : Bool) : Byte := if c then 1 else 0

/-- `8xy4`: 1 iff the sum exceeds 255 (R202, R208). -/
def carryFlag (a b : Byte) : Byte := flagByte (255 < a.toNat + b.toNat)

/-- `8xy5`, `8xy7`: 1 iff `a - b` needs no borrow (R202, R209, R211). -/
def notBorrowFlag (a b : Byte) : Byte := flagByte (b.toNat ≤ a.toNat)

/-- `8xy6`: the bit shifted out, the old bit 0 (R210). -/
def shiftedOutLow (a : Byte) : Byte := a &&& 1

/-- `8xyE`: the bit shifted out, the old bit 7 (R212). -/
def shiftedOutHigh (a : Byte) : Byte := a >>> 7

/-- `V[x] <- result`, then `VF <- flag`: with `x = 0xF` the flag wins (R30, R201; log 16). -/
def State.setResultAndFlag (s : State) (x : Reg) (result flag : Byte) : State :=
  (s.setV x result).setV vF flag

/-- `VF` after `8xy0` to `8xy3`, written after the result, per `LOGIC_VF` (R203; log 8). -/
def State.setLogicVf (s : State) : State :=
  match s.cfg.logicVf with
  | .anyByte => { s.setV vF (s.vfDraws.value Config.freeLogicVf) with vfDraws := s.vfDraws.rest }
  | .zero => s.setV vF 0
  | .untouched => s

end Sys2Proof.Machine
end

