-- ==== Sys2Proof/Machine/Alu.lean ====
section
/-! DEFINITION. The ALU family: `8xy0` to `8xy7`, `8xyE` (R200 to R212). Both operands are read
before anything is written; the flag is written last (R200, R201). -/

namespace Sys2Proof.Machine

/-- A copy or bitwise operation: the result, then `VF` per `LOGIC_VF` (R203). -/
def logicOp (x : Reg) (result : Byte) (s : State) : Result :=
  advance s (s.setV x result).setLogicVf

/-- An operation with a flag: the result, then the flag (R201). -/
def flagOp (x : Reg) (result flag : Byte) (s : State) : Result :=
  advance s (s.setResultAndFlag x result flag)

/-- `8xy0`: `V[x] <- V[y]` (R204). -/
def execLdReg (x y : Reg) (s : State) : Result := logicOp x (s.getV y) s

/-- `8xy1`: bitwise OR (R205). -/
def execOr (x y : Reg) (s : State) : Result := logicOp x (s.getV x ||| s.getV y) s

/-- `8xy2`: bitwise AND (R206). -/
def execAnd (x y : Reg) (s : State) : Result := logicOp x (s.getV x &&& s.getV y) s

/-- `8xy3`: bitwise XOR (R207). -/
def execXor (x y : Reg) (s : State) : Result := logicOp x (s.getV x ^^^ s.getV y) s

/-- `8xy4`: the sum modulo 256, `VF` the carry out; no carry in (R208). -/
def execAddReg (x y : Reg) (s : State) : Result :=
  flagOp x (s.getV x + s.getV y) (carryFlag (s.getV x) (s.getV y)) s

/-- `8xy5`: `V[x] - V[y]` modulo 256, `VF` = 1 iff no borrow (R209). -/
def execSub (x y : Reg) (s : State) : Result :=
  flagOp x (s.getV x - s.getV y) (notBorrowFlag (s.getV x) (s.getV y)) s

/-- `8xy6`: `V[x]` shifted right by 1, `VF` the old bit 0; `y` is ignored (R210, R111). -/
def execShr (x _y : Reg) (s : State) : Result :=
  flagOp x (s.getV x >>> 1) (shiftedOutLow (s.getV x)) s

/-- `8xy7`: `V[y] - V[x]` modulo 256, `VF` = 1 iff no borrow (R211). -/
def execSubn (x y : Reg) (s : State) : Result :=
  flagOp x (s.getV y - s.getV x) (notBorrowFlag (s.getV y) (s.getV x)) s

/-- `8xyE`: `V[x]` shifted left by 1, `VF` the old bit 7; `y` is ignored (R212, R111). -/
def execShl (x _y : Reg) (s : State) : Result :=
  flagOp x (s.getV x <<< 1) (shiftedOutHigh (s.getV x)) s

end Sys2Proof.Machine
end

