-- ==== Sys2Proof/Machine/Operands.lean ====
section
/-! DEFINITION. The operand forms (R93): a register, an immediate, an absolute address and the
forms below; and the key number of a key skip (R177). Register and immediate operands need no
definition: they are `State.getV` and the instruction's own field. -/

namespace Sys2Proof.Machine

/-- `V0`-indexed absolute: `nnn + V[0]`, a natural number 0..0x10FE, before it is narrowed (R153). -/
def v0Indexed (s : State) (nnn : Addr) : Nat := nnn.toNat + (s.getV 0).toNat

/-- `i`-based memory: the base of the effective addresses `i + k`, never wrapped (R64, R236). -/
def indexBase (s : State) : Nat := s.i.toNat

/-- `i + V[x]`, a natural number, before it is narrowed (R231). -/
def indexPlus (s : State) (x : Reg) : Nat := s.i.toNat + (s.getV x).toNat

/-- `V[x] * 5`: the whole byte, not its low nibble (R232). -/
def glyphAddress (b : Byte) : Nat := b.toNat * glyphStride

/-- `V[0]`, ..., `V[x]`: the field `x` is a count minus one (R234). -/
def lowRegisters (s : State) (x : Reg) : List Byte := s.v.toList.take (x.val + 1)

/-- `V[k]` after the loaded bytes stand in `V[0]`, `V[1]`, ...; registers above are unchanged (R235). -/
def loadedRegisters (v : Vector Byte 16) (bytes : List Byte) : Vector Byte 16 :=
  Vector.ofFn fun k => bytes.getD k.val v[k]

/-- The decimal digits hundreds, tens, units of a byte (R233). -/
def decimalDigits (b : Byte) : List Byte :=
  [BitVec.ofNat 8 (b.toNat / 100), BitVec.ofNat 8 (b.toNat / 10 % 10), BitVec.ofNat 8 (b.toNat % 10)]

/-- The key number a key skip asks about: `V[x]` itself up to 15, above that per `KEY_OOR`
(R175, R177; log 9). Under `Draw` the answer is a free value of its own for each byte. -/
def keyNumber (p : Params) (k : Byte) : Except Fault Byte :=
  if k.toNat < numKeys then .ok k
  else
    match p.keyOor with
    | .fault => .error (.keyOutOfRange k)
    | .draw => .ok k
    | .mask4 => .ok (k &&& 0x0F)

/-- The host's answer to "is logical key `k` currently pressed?" (R177, R306). -/
def keyPressed (s : State) (k : Byte) : Bool := s.keys.value (Config.freeKey k)

/-- The state after one answer is taken. -/
def keyTaken (s : State) : State := { s with keys := s.keys.rest }

/-- The byte `RandomByte()` returns (R44, R307). -/
def randomByte (s : State) : Byte := s.rng.value Config.freeRandom

/-- The state after one random byte is consumed (R192). -/
def randomTaken (s : State) : State := { s with rng := s.rng.rest }

end Sys2Proof.Machine
end

