-- ==== Sys2Proof/Machine/Control.lean ====
section
/-! DEFINITION. Control transfer: `00EE`, `1nnn`, `2nnn`, `Bnnn` (R150 to R155). -/

namespace Sys2Proof.Machine

/-- `00EE`: pop the stack into `pc`; an empty stack is the fault `MissingReturnAddress` (R150, R38). -/
def execRet (s : State) : Result :=
  match s.stack with
  | [] => raise .missingReturnAddress s
  | t :: rest => .next { s with pc := t, stack := rest }

/-- `1nnn`: `pc <- nnn` (R151). -/
def execJp (nnn : Addr) (s : State) : Result := .next { s with pc := nnn }

/-- `2nnn`: push `pc +12 2`, then `pc <- nnn`; a full stack is `StackOverflow`, a carry of `pc + 2`
under `FaultOnCarry` is `AddressCarry`, in this order (R152, R337). -/
def execCall (nnn : Addr) (s : State) : Result :=
  if stackFull s then raise .stackOverflow s
  else
    match narrow s.cfg (s.pc.toNat + 2) with
    | none => raise .addressCarry s
    | some back => .next { s with pc := nnn, stack := back :: s.stack }

/-- `Bnnn`: `pc <- nnn +12 V[0]`, always register 0 (R153). -/
def execJpV0 (nnn : Addr) (s : State) : Result := goto s s (v0Indexed s nnn)

end Sys2Proof.Machine
end

