-- ==== Sys2Proof/Machine/Blit.lean ====
section
/-! DEFINITION. The blit engine (R260 to R266): `Clear()` and `Blit(rows, ox, oy)`. -/

namespace Sys2Proof.Machine

/-- `fb[r][c]` (R41). -/
def pixel (fb : Fb) (r : Fin 32) (c : Fin 64) : Bool := fb[r][c]

/-- `fb[r][c] <- b`. -/
def setPixel (fb : Fb) (r : Fin 32) (c : Fin 64) (b : Bool) : Fb := fb.set r (fb[r].set c b)

/-- `Clear()`: every pixel off (R261). -/
def clearDisplay : Fb := Fb.clear

/-- A blit under way: the display and the collision seen so far (R262). -/
structure Drawing where
  fb : Fb
  collision : Bool
deriving DecidableEq, Repr

/-- The sprite bit `b` of a row, `b = 0` the most significant and leftmost (R262). -/
def spriteBit (row : Byte) (b : Nat) : Bool := row.getLsbD (7 - b)

/-- The column of sprite bit `b`: `(ox + b) mod 64` (R262, R264). -/
def spriteCol (ox : Byte) (b : Nat) : Fin 64 := Fin.ofNat 64 (ox.toNat + b)

/-- The display row of sprite row `j`: `(oy + j) mod 32` (R262, R264). -/
def spriteRow (oy : Byte) (j : Nat) : Fin 32 := Fin.ofNat 32 (oy.toNat + j)

/-- One pixel: XOR with the sprite bit; a collision when a lit pixel is erased (R262, R263). -/
def blitPixel (r : Fin 32) (c : Fin 64) (bit : Bool) (d : Drawing) : Drawing where
  fb := setPixel d.fb r c (pixel d.fb r c ^^ bit)
  collision := d.collision || (pixel d.fb r c && bit)

/-- One sprite row: its eight bits in ascending order (R262). -/
def blitRow (row : Byte) (ox oy : Byte) (j : Nat) (d : Drawing) : Drawing :=
  (List.range 8).foldl
    (fun d b => blitPixel (spriteRow oy j) (spriteCol ox b) (spriteBit row b) d) d

/-- The sprite rows from index `j` on, ascending (R262; any number of rows, R265). -/
def blitRows (ox oy : Byte) : Nat → List Byte → Drawing → Drawing
  | _, [], d => d
  | j, row :: rows, d => blitRows ox oy (j + 1) rows (blitRow row ox oy j d)

/-- `Blit(rows, ox, oy)`: the display after it, and whether a lit pixel was erased (R262). -/
def blit (rows : List Byte) (ox oy : Byte) (fb : Fb) : Drawing :=
  blitRows ox oy 0 rows ⟨fb, false⟩

end Sys2Proof.Machine
end

