-- ==== Sys2Proof/Machine/Display.lean ====
section
/-! DEFINITION. The display instructions: `00E0`, `Dxyn` (R270, R271). -/

namespace Sys2Proof.Machine

/-- `00E0`: clear the display (R270). -/
def execCls (s : State) : Result := advance s { s with fb := clearDisplay }

/-- `Dxyn`: blit the `n` bytes at `i` at column `V[x]`, row `V[y]`; `VF` is the collision, written
also when `n = 0`. All rows are read and the origin taken before a pixel or `VF` changes (R271). -/
def execDrw (x y : Reg) (n : Fin 16) (s : State) : Result :=
  match loadBytes s (indexBase s) n.val with
  | .error f => raise f s
  | .ok rows =>
    let d := blit rows (s.getV x) (s.getV y) s.fb
    advance s ({ s with fb := d.fb }.setV vF (flagByte d.collision))

end Sys2Proof.Machine
end

