-- ==== Sys2Proof/Machine/Hooks.lean ====
section
/-! DEFINITION. The timer and key-wait hooks: `Fx07`, `Fx0A`, `Fx15`, `Fx18`. They change nothing
but `pc` and emit one output-only event (R290 to R295; log 12). -/

namespace Sys2Proof.Machine

/-- `Hook(kind, x[, v])`, then `pc <- pc +12 2` (R295, R308). -/
def hook (e : HookEvent) (s : State) : Result := advance s { s with hooks := s.hooks ++ [e] }

/-- `Fx07`: `V[x]` keeps its value (R291). -/
def execLdVxDt (x : Reg) (s : State) : Result := hook (.readDelay x) s

/-- `Fx0A`: it neither waits, nor asks a key, nor writes `V[x]` (R292). -/
def execLdVxK (x : Reg) (s : State) : Result := hook (.waitKey x) s

/-- `Fx15`: `V[x]` goes on the event only (R293). -/
def execLdDtVx (x : Reg) (s : State) : Result := hook (.writeDelay x (s.getV x)) s

/-- `Fx18`: `V[x]` goes on the event only (R294). -/
def execLdStVx (x : Reg) (s : State) : Result := hook (.writeSound x (s.getV x)) s

end Sys2Proof.Machine
end

