-- ==== Sys2Proof/Machine/IndexMemory.lean ====
section
/-! DEFINITION. Index register and memory transfer: `Annn`, `Fx1E`, `Fx29`, `Fx33`, `Fx55`, `Fx65`
(R230 to R237). -/

namespace Sys2Proof.Machine

/-- End an instruction that began in `s` and whose other effects are in `t`, with `i <- n` and
`pc <- pc +12 2`; a carry that faults discards `t` (R35, R337). -/
def advanceWithIndex (s t : State) (n : Nat) : Result :=
  match narrow s.cfg n with
  | none => raise .addressCarry s
  | some a => advance s { t with i := a }

/-- `Annn`: `i <- nnn` (R230). -/
def execLdI (nnn : Addr) (s : State) : Result := advance s { s with i := nnn }

/-- `Fx1E`: `i <- i +12 V[x]`, no flag (R231). -/
def execAddI (x : Reg) (s : State) : Result := advanceWithIndex s s (indexPlus s x)

/-- `Fx29`: `i <- V[x] * 5`, at most 1275 (R232). -/
def execLdF (x : Reg) (s : State) : Result := advanceWithIndex s s (glyphAddress (s.getV x))

/-- `Fx33`: the three decimal digits of `V[x]` at `i`, `i + 1`, `i + 2`; `i` is unchanged (R233). -/
def execLdB (x : Reg) (s : State) : Result :=
  match storeBytes s (indexBase s) (decimalDigits (s.getV x)) with
  | .error f => raise f s
  | .ok t => advance s t

/-- `Fx55`: `V[0]` to `V[x]` at `i` to `i + x`, then `i <- i +12 (x + 1)` (R234). -/
def execLdMemVx (x : Reg) (s : State) : Result :=
  match storeBytes s (indexBase s) (lowRegisters s x) with
  | .error f => raise f s
  | .ok t => advanceWithIndex s t (indexBase s + (x.val + 1))

/-- `Fx65`: `V[0]` to `V[x]` from `i` to `i + x`, then `i <- i +12 (x + 1)` (R235). -/
def execLdVxMem (x : Reg) (s : State) : Result :=
  match loadBytes s (indexBase s) (x.val + 1) with
  | .error f => raise f s
  | .ok bytes =>
    advanceWithIndex s { s with v := loadedRegisters s.v bytes } (indexBase s + (x.val + 1))

end Sys2Proof.Machine
end

