-- ==== Sys2Proof/Machine/LoadAddRandom.lean ====
section
/-! DEFINITION. Immediate load, immediate add, random: `6xnn`, `7xnn`, `Cxnn` (R190 to R192). -/

namespace Sys2Proof.Machine

/-- `6xnn`: `V[x] <- nn` (R190). -/
def execLdImm (x : Reg) (nn : Byte) (s : State) : Result := advance s (s.setV x nn)

/-- `7xnn`: `V[x] <- V[x] +8 nn`, no flag (R191). -/
def execAddImm (x : Reg) (nn : Byte) (s : State) : Result := advance s (s.setV x (s.getV x + nn))

/-- `Cxnn`: `V[x] <- RandomByte() & nn`; one random byte is consumed (R192). -/
def execRnd (x : Reg) (nn : Byte) (s : State) : Result :=
  advance s ((randomTaken s).setV x (randomByte s &&& nn))

end Sys2Proof.Machine
end

