-- ==== Sys2Proof/Machine/Skips.lean ====
section
/-! DEFINITION. Conditional skips: `3xnn`, `4xnn`, `5xy0`, `9xy0`, `Ex9E`, `ExA1` (R170 to R177). -/

namespace Sys2Proof.Machine

/-- `3xnn`: skip if `V[x] == nn` (R171). -/
def execSeImm (x : Reg) (nn : Byte) (s : State) : Result := skipIf s s (s.getV x == nn)

/-- `4xnn`: skip if `V[x] != nn` (R172). -/
def execSneImm (x : Reg) (nn : Byte) (s : State) : Result := skipIf s s (s.getV x != nn)

/-- `5xy0`: skip if `V[x] == V[y]` (R173). -/
def execSeReg (x y : Reg) (s : State) : Result := skipIf s s (s.getV x == s.getV y)

/-- `9xy0`: skip if `V[x] != V[y]` (R174). -/
def execSneReg (x y : Reg) (s : State) : Result := skipIf s s (s.getV x != s.getV y)

/-- A key skip: ask the host about key `V[x]`, skip if the answer is `wanted` (R177). -/
def keySkip (wanted : Bool) (x : Reg) (s : State) : Result :=
  match keyNumber s.cfg (s.getV x) with
  | .error f => raise f s
  | .ok k => skipIf s (keyTaken s) (keyPressed s k == wanted)

/-- `Ex9E`: skip if key `V[x]` is pressed (R175). -/
def execSkp (x : Reg) (s : State) : Result := keySkip true x s

/-- `ExA1`: skip if key `V[x]` is not pressed (R176). -/
def execSknp (x : Reg) (s : State) : Result := keySkip false x s

end Sys2Proof.Machine
end

