-- ==== Sys2Proof/Machine/Step.lean ====
section
/-! DEFINITION. One step of the core (R130): fetch, decode, execute; and the placing of one
instruction where the next step fetches it. -/

namespace Sys2Proof.Machine

/-- One step (R130, R139): a machine whose latch is set takes none and reports the latched fault
(R343); else fetch bounds, decode, and the instruction's own meaning, each fault taken by `raise`. -/
def step (s : State) : Host.Outcome State Fault Refusal :=
  match s.fault with
  | some f => .fault f
  | none =>
    match fetch s with
    | .error f => raise f s
    | .ok bytes =>
      match decodeBytes bytes with
      | .error _ => raise (.illegalInstruction s.pc) s
      | .ok (i, _) => exec i s

/-- `s` with the instruction word `tableWord nbits w` where the next step fetches: at `pc`, high byte
first. What the fetch needs besides: a clear latch (R343), and a `pc` from which two bytes can be
fetched, so `pc` = 0xFFF, where no fetch succeeds (R131), becomes `PROG_START` (log 18). -/
def State.withFetchWord (s : State) (nbits w : Nat) : State :=
  let pc := if s.pc = 0xFFF then progStart else s.pc
  { s with
    pc := pc
    mem := s.mem.writeAll pc.toNat (wordBytes (tableWord nbits w))
    fault := none }

end Sys2Proof.Machine
end

