-- ==== Sys2Proof/Machine/Transactions.lean ====
section
/-! DEFINITION. The host-initiated transactions (R300, R310): `Reset`, `Load`, `Step`,
`DisplayRead`, `FaultRead`, `StateRead`. Each acts between two steps (R73, R302; log 20). -/

namespace Sys2Proof.Machine

/-- A source after `Reset`: its state is unspecified, so nothing injected is left and its number
moves on to free values of which nothing is known (R44, R370; log 21). -/
def Draws.renew {α : Type} (d : Draws α) : Draws α := ⟨[], d.taken + 1⟩

/-- `Reset`: the reset state under the machine's parameters, at any time (R370); the environment's
sources go on, and the events already emitted stay with the host (log 21). -/
def hostReset (s : State) : State :=
  { State.resetWith s.cfg with
    rng := s.rng.renew
    keys := s.keys.renew
    vfDraws := s.vfDraws.renew
    hooks := s.hooks }

/-- The reply to `Load` (R303). -/
inductive LoadReply where
  | ok
  | outOfBounds
deriving DecidableEq, Repr

/-- `Load(offset, bytes)`: a `BulkWrite` into `mem`; when it is too long nothing is written and the
latch is not set (R61, R303). -/
def hostLoad (offset : Nat) (bytes : List Byte) (s : State) : State × LoadReply :=
  match bulkWrite s.mem offset bytes with
  | none => (s, .outOfBounds)
  | some m => ({ s with mem := m }, .ok)

/-- The reply to `Step` (R301, R340). -/
inductive StepReply where
  | completed
  | faulted (f : Fault)
  | refused (r : Refusal)
deriving DecidableEq, Repr

/-- `Step`: the state after it and its reply. While the latch is set it changes nothing and reports
the latched fault (R301, R343). -/
def hostStep (s : State) : State × StepReply :=
  match step s with
  | .next t =>
    match t.fault with
    | none => (t, .completed)
    | some f => (t, .faulted f)
  | .fault f => (s, .faulted f)
  | .refused r => (s, .refused r)

/-- `DisplayRead`: the pixels of `fb`, row by row (R305). -/
def displayRead (s : State) : Fb := s.fb

/-- `FaultRead`: the latched fault, its kind and its info (R309). -/
def faultRead (s : State) : Option Fault := s.fault

/-- The spec's numbers of the faults, for identification only (R333; log 26). -/
def Fault.code : Fault → Nat
  | .outOfBounds _ => 1
  | .illegalInstruction _ => 2
  | .missingReturnAddress => 3
  | .stackOverflow => 4
  | .keyOutOfRange _ => 5
  | .addressCarry => 6

/-- What `StateRead` returns (R310, R352). -/
structure StateView where
  v : Vector Byte 16
  pc : Addr
  i : Addr
  stack : List Addr
deriving DecidableEq, Repr

/-- `StateRead`: the optional debug read-out (R352). -/
def stateRead (s : State) : StateView := ⟨s.v, s.pc, s.i, s.stack⟩

/-- Boot: `Reset`, then `Load(0x200, image)` (R372, R374). -/
def boot (image : List Byte) (s : State) : State × LoadReply :=
  hostLoad progStart.toNat image (hostReset s)

end Sys2Proof.Machine
end

