-- ==== Sys2Proof/WellFormed.lean ====
section
/-! DEFINITION. Checks on what a type does not rule out. A register number, an immediate or a count
outside its range cannot be written as an `Instr` at all (R93: every value of every field is legal),
so an instruction carries no further check; what can be ill-formed is a set of fields that
contradict one another (R92), a set of parameters outside its domain (R7), and a program image that
does not fit (R61, R303). -/

namespace Sys2Proof

/-- The overlap law of the fields (R92): `nn = y ++ n` and `nnn = x ++ nn`. -/
def Fields.wf (f : Fields) : Bool :=
  f.nn == f.y ++ f.n && f.nnn == f.x ++ f.nn

/-- The domain of the parameters (R7): a finite `STACK_DEPTH` is at least 1. -/
def Params.wf (p : Params) : Bool :=
  match p.stackDepth with
  | none => true
  | some depth => 1 ≤ depth

/-- A program image fits the memory at its offset (R61); at `PROG_START` that is at most 3584 bytes
(R303). -/
def imageFits (offset : Nat) (image : List Byte) : Bool :=
  offset + image.length ≤ memSize

end Sys2Proof
end

