-- ==== Sys2Proof/Safety.lean ====
section
/-! DEFINITION. What counts as a safe state and a safe run, and the words the statements use. -/

namespace Sys2Proof.Machine

/-- The machine takes steps: no fault is latched (R130, R343). -/
abbrev Running (s : State) : Prop := s.fault = none

/-- A write of `n` to `pc` or `i` does not fault: it wraps, or it does not carry (R26, R35). -/
abbrev AddrFits (s : State) (n : Nat) : Prop := s.cfg.addrOverflow = .wrap12 ∨ n < memSize

/-- `pc <- pc +12 2` does not fault (R26, R134). -/
abbrev CanAdvance (s : State) : Prop := AddrFits s (s.pc.toNat + 2)

/-- The stack holds at most `STACK_DEPTH` entries (R37, R48). -/
def StackBounded (s : State) : Prop := ∀ depth, s.cfg.stackDepth = some depth → s.stack.length ≤ depth

/-- What a latched fault says of the machine that holds it (R333, R334): the data are as they were
before the faulting step, so the fault's own condition can still be read off them. -/
def FaultExact (s : State) : Fault → Prop
  | .outOfBounds addr => addr = memSize
  | .illegalInstruction pc => pc = s.pc
  | .missingReturnAddress => s.stack = []
  | .stackOverflow => s.cfg.stackDepth = some s.stack.length
  | .keyOutOfRange k => numKeys ≤ k.toNat ∧ s.cfg.keyOor = .fault ∧ ∃ x, s.getV x = k
  | .addressCarry => s.cfg.addrOverflow = .faultOnCarry

/-- The invariant of the machine (R48): the parameters are in their domain, memory is in canonical
form, the stack is bounded, and a latched fault is exact. The widths of R48 hold by type. -/
structure Inv (s : State) : Prop where
  params : s.cfg.wf = true
  memory : s.mem.wf = true
  stack : StackBounded s
  latch : ∀ f, s.fault = some f → FaultExact s f

/-- `k` steps, each completed or faulting, lead from `s` to `t`. -/
inductive Steps : Nat → State → State → Prop where
  | refl (s : State) : Steps 0 s s
  | next {k : Nat} {s t u : State} (first : step s = .next t) (others : Steps k t u) : Steps (k + 1) s u

/-- A safe run: no fault is latched after `k` steps from `s`, for any `k`. -/
def FaultFree (s : State) : Prop := ∀ k t, Steps k s t → Running t

/-- The instruction writes register `k`, on some operands (R22). -/
def writesReg : Instr → Reg → Bool
  | .ldImm x _, k | .addImm x _, k | .rnd x _, k => k == x
  | .ldReg x _, k | .or x _, k | .and x _, k | .xor x _, k => k == x || k == vF
  | .addReg x _, k | .sub x _, k | .shr x _, k | .subn x _, k | .shl x _, k => k == x || k == vF
  | .drw _ _ _, k => k == vF
  | .ldVxMem x, k => k ≤ x
  | .cls, _ | .ret, _ | .jp _, _ | .call _, _ | .seImm _ _, _ | .sneImm _ _, _ | .seReg _ _, _
  | .sneReg _ _, _ | .ldI _, _ | .jpV0 _, _ | .skp _, _ | .sknp _, _ | .ldVxDt _, _ | .ldVxK _, _
  | .ldDtVx _, _ | .ldStVx _, _ | .addI _, _ | .ldF _, _ | .ldB _, _ | .ldMemVx _, _ => false

/-- The instruction writes memory (R40, R66). -/
def writesMemory : Instr → Bool
  | .ldB _ | .ldMemVx _ => true
  | .cls | .ret | .jp _ | .call _ | .seImm _ _ | .sneImm _ _ | .seReg _ _ | .ldImm _ _ | .addImm _ _
  | .ldReg _ _ | .or _ _ | .and _ _ | .xor _ _ | .addReg _ _ | .sub _ _ | .shr _ _ | .subn _ _
  | .shl _ _ | .sneReg _ _ | .ldI _ | .jpV0 _ | .rnd _ _ | .drw _ _ _ | .skp _ | .sknp _ | .ldVxDt _
  | .ldVxK _ | .ldDtVx _ | .ldStVx _ | .addI _ | .ldF _ | .ldVxMem _ => false

/-- The instruction changes the display (R260). -/
def writesDisplay : Instr → Bool
  | .cls | .drw _ _ _ => true
  | .ret | .jp _ | .call _ | .seImm _ _ | .sneImm _ _ | .seReg _ _ | .ldImm _ _ | .addImm _ _
  | .ldReg _ _ | .or _ _ | .and _ _ | .xor _ _ | .addReg _ _ | .sub _ _ | .shr _ _ | .subn _ _
  | .shl _ _ | .sneReg _ _ | .ldI _ | .jpV0 _ | .rnd _ _ | .skp _ | .sknp _ | .ldVxDt _ | .ldVxK _
  | .ldDtVx _ | .ldStVx _ | .addI _ | .ldF _ | .ldB _ | .ldMemVx _ | .ldVxMem _ => false

/-- The instruction touches the call stack (R36). -/
def usesStack : Instr → Bool
  | .ret | .call _ => true
  | .cls | .jp _ | .seImm _ _ | .sneImm _ _ | .seReg _ _ | .ldImm _ _ | .addImm _ _ | .ldReg _ _
  | .or _ _ | .and _ _ | .xor _ _ | .addReg _ _ | .sub _ _ | .shr _ _ | .subn _ _ | .shl _ _
  | .sneReg _ _ | .ldI _ | .jpV0 _ | .rnd _ _ | .drw _ _ _ | .skp _ | .sknp _ | .ldVxDt _ | .ldVxK _
  | .ldDtVx _ | .ldStVx _ | .addI _ | .ldF _ | .ldB _ | .ldMemVx _ | .ldVxMem _ => false

/-- The instruction writes the index register (R34). -/
def writesIndex : Instr → Bool
  | .ldI _ | .addI _ | .ldF _ | .ldMemVx _ | .ldVxMem _ => true
  | .cls | .ret | .jp _ | .call _ | .seImm _ _ | .sneImm _ _ | .seReg _ _ | .ldImm _ _ | .addImm _ _
  | .ldReg _ _ | .or _ _ | .and _ _ | .xor _ _ | .addReg _ _ | .sub _ _ | .shr _ _ | .subn _ _
  | .shl _ _ | .sneReg _ _ | .jpV0 _ | .rnd _ _ | .drw _ _ _ | .skp _ | .sknp _ | .ldVxDt _
  | .ldVxK _ | .ldDtVx _ | .ldStVx _ | .ldB _ => false

/-- The instruction is one of the four hooks (R290). -/
def isHook : Instr → Bool
  | .ldVxDt _ | .ldVxK _ | .ldDtVx _ | .ldStVx _ => true
  | .cls | .ret | .jp _ | .call _ | .seImm _ _ | .sneImm _ _ | .seReg _ _ | .ldImm _ _ | .addImm _ _
  | .ldReg _ _ | .or _ _ | .and _ _ | .xor _ _ | .addReg _ _ | .sub _ _ | .shr _ _ | .subn _ _
  | .shl _ _ | .sneReg _ _ | .ldI _ | .jpV0 _ | .rnd _ _ | .drw _ _ _ | .skp _ | .sknp _ | .addI _
  | .ldF _ | .ldB _ | .ldMemVx _ | .ldVxMem _ => false

/-- The sprite bit that a blit of `rows` at column `ox`, row `oy` lays over the pixel at row `r`,
column `c`, for at most 32 rows (R262, R265): the pixel is `j` rows below and `b` columns right of
the origin, modulo 32 and 64, and has bit `b` of row `j`, or 0 outside the sprite. -/
def spriteAt (rows : List Byte) (ox oy : Byte) (r : Fin 32) (c : Fin 64) : Bool :=
  let j := (r.val + 256 - oy.toNat) % 32
  let b := (c.val + 256 - ox.toNat) % 64
  decide (b < 8) && (rows.getD j 0).getLsbD (7 - b)

end Sys2Proof.Machine
end

