-- ==== Sys2Proof/Certificates/Slice0/Obligations.lean ====
section
/-! DEFINITION. The statements about the machine, from the numbered rules of the spec. A faulting
step is a next state that differs in the latch alone, `{ s with fault := some f }` (R12, R340; log 1).
`AddrFits s n` says that a write of `n` to `pc` or `i` does not fault (R26, R35; log 6), and
`CanAdvance s` that `pc + 2` does not; `OnCarryTheFaultIsTaken` says what happens otherwise. -/

open Sys2Proof Sys2Proof.Machine

/-! ## Reset and the invariant -/

/-- R47, R370, the whole reset state. The zero registers and display, the empty stack and latch and the
default parameters are decisions of the spec (D13 to D16, D2, D4, D7, D9; logs 2 to 9); the sources of
draws and the event list are the model's own (logs 8, 10, 11, 12). R373: with nothing loaded the first
step is the illegal word 0x0000 at 0x200. -/
def Obligations.ResetStateValues : Prop :=
  (∀ k, State.reset.getV k = 0) ∧ State.reset.pc = 0x200 ∧ State.reset.i = 0 ∧ State.reset.stack = [] ∧
  (∀ a, State.reset.mem.read a = 0) ∧ (∀ r c, pixel State.reset.fb r c = false) ∧
  State.reset.fault = none ∧ State.reset.hooks = [] ∧ State.reset.rng = ⟨[], 0⟩ ∧
  State.reset.keys = ⟨[], 0⟩ ∧ State.reset.vfDraws = ⟨[], 0⟩ ∧ State.reset.cfg = Params.default ∧
  step State.reset = .next { State.reset with fault := some (.illegalInstruction 0x200) }

/-- The reset state satisfies the invariant, under every set of parameters in its domain (R48). -/
def Obligations.ResetStatesSatisfyInv : Prop :=
  ∀ p : Params, p.wf = true → Inv (State.resetWith p)

/-- Every step keeps the invariant: canonical memory, bounded stack, exact latch (R48, R37, R333, R334). -/
def Obligations.StepKeepsInv : Prop :=
  ∀ s t : State, Inv s → step s = .next t → Inv t

/-- The host's transactions keep the invariant, `Reset` clears the latch and sets `pc`, and a `Load` that is
rejected changes nothing (R303, R312, R370). That `Reset` keeps the parameters is the model's choice (log 21). -/
def Obligations.HostTransactionsKeepInv : Prop :=
  ∀ s : State, Inv s →
    (Inv (hostReset s) ∧ Running (hostReset s) ∧ (hostReset s).cfg = s.cfg ∧ (hostReset s).pc = 0x200) ∧
    (∀ offset bytes, Inv (hostLoad offset bytes s).1 ∧
      ((hostLoad offset bytes s).2 = .outOfBounds → (hostLoad offset bytes s).1 = s)) ∧
    Inv (hostStep s).1

/-! ## Encoding -/

/-- Decoding the bytes of an instruction gives the instruction and leaves what follows: no bit of an
encoding is dropped, for every instruction and every operand. -/
def Obligations.DecodeOfEncode : Prop :=
  ∀ (i : Instr) (rest : List Byte), decodeBytes (encodeBytes i ++ rest) = .ok (i, rest)

/-- A word stands for one instruction, and encoding what it decodes to gives the word back. Two words that
differ in the ignored `y` of `8xy6` or `8xyE` are two instructions here, with one behaviour: that `y` is kept
in the syntax is the model's choice (R111, R120; log 15). -/
def Obligations.EncodeOfDecode : Prop :=
  ∀ (w : Word) (i : Instr), decode w = .ok i → encode i = w

/-- R94, R101: the decode procedure accepts exactly the words that match a row of the opcode table,
and gives the instruction of that row. Every literal nibble is exact, the spec's D8 (R102; log 14). -/
def Obligations.DecodeAgreesWithOpcodeTable : Prop :=
  (∀ w : Word, (∃ i, decode w = .ok i) ↔ ∃ r ∈ opcodeTable, w &&& r.mask = r.fixed) ∧
  (∀ (w : Word) (i : Instr), decode w = .ok i →
    ∃ r ∈ opcodeTable, r.mnemonic = i.mnemonic ∧ w &&& r.mask = r.fixed)

/-- R100: no two rows match the same word. -/
def Obligations.OpcodeRowsAreDisjoint : Prop :=
  opcodeTable.length = 34 ∧
  opcodeTable.Pairwise fun r q => ∀ w : Word, ¬(w &&& r.mask = r.fixed ∧ w &&& q.mask = q.fixed)

/-- R110, R213: the illegal words, family by family. -/
def Obligations.IllegalWordsByFamily : Prop :=
  ∀ w : Word,
    (decode w = .error .family0 ↔ w.toNat < 0x1000 ∧ w ≠ 0x00E0 ∧ w ≠ 0x00EE) ∧
    (decode w = .error .family5 ↔ w.toNat / 4096 = 5 ∧ w.toNat % 16 ≠ 0) ∧
    (decode w = .error .family8 ↔ w.toNat / 4096 = 8 ∧ w.toNat % 16 ∈ [0x8, 0x9, 0xA, 0xB, 0xC, 0xD, 0xF]) ∧
    (decode w = .error .family9 ↔ w.toNat / 4096 = 9 ∧ w.toNat % 16 ≠ 0) ∧
    (decode w = .error .familyE ↔ w.toNat / 4096 = 0xE ∧ w.toNat % 256 ∉ [0x9E, 0xA1]) ∧
    (decode w = .error .familyF ↔ w.toNat / 4096 = 0xF ∧
      w.toNat % 256 ∉ [0x07, 0x0A, 0x15, 0x18, 0x1E, 0x29, 0x33, 0x55, 0x65]) ∧
    decode w ≠ .error .truncated

/-- Words written out from the patterns of R100, and their meaning. That 01E0 is illegal is the spec's D8
(R102; log 14), and that the ignored `y` of 8236 is kept is the model's choice (R111; log 15). -/
def Obligations.DecodedSampleWords : Prop :=
  decode 0x00EE = .ok .ret ∧ decode 0x2210 = .ok (.call 0x210) ∧ decode 0x4311 = .ok (.sneImm 3 0x11) ∧
  decode 0x6A7B = .ok (.ldImm 0xA 0x7B) ∧ decode 0x8347 = .ok (.subn 3 4) ∧ decode 0x8236 = .ok (.shr 2 3) ∧
  decode 0xB300 = .ok (.jpV0 0x300) ∧ decode 0xD012 = .ok (.drw 0 1 2) ∧ decode 0xE5A1 = .ok (.sknp 5) ∧
  decode 0xF215 = .ok (.ldDtVx 2) ∧ decode 0xFF65 = .ok (.ldVxMem 0xF) ∧ decode 0x01E0 = .error .family0

/-- R92: the fields of every word, and their overlap. -/
def Obligations.FieldsOfEveryWord : Prop :=
  ∀ w : Word,
    (fieldsOf w).op.toNat = w.toNat / 4096 ∧ (fieldsOf w).x.toNat = w.toNat / 256 % 16 ∧
    (fieldsOf w).y.toNat = w.toNat / 16 % 16 ∧ (fieldsOf w).n.toNat = w.toNat % 16 ∧
    (fieldsOf w).nn.toNat = w.toNat % 256 ∧ (fieldsOf w).nnn.toNat = w.toNat % 4096 ∧
    (fieldsOf w).wf = true

/-! ## The instruction cycle -/

/-- R62, R131: the fetch reads the byte at `pc`, then the byte at `pc + 1`; the first is the high byte of
the word. At `pc` = 0xFFF, and only there, it is out of bounds at 4096 (R64, the spec's D3; log 17). -/
def Obligations.FetchIsBigEndian : Prop :=
  ∀ s : State,
    (s.pc ≠ 0xFFF → fetch s = .ok [s.mem.read s.pc.toNat, s.mem.read (s.pc.toNat + 1)]) ∧
    (s.pc = 0xFFF → fetch s = .error (.outOfBounds 4096)) ∧
    ∀ hi lo : Byte, (wordOf hi lo).toNat = hi.toNat * 256 + lo.toNat

/-- A step runs the decoded instruction: with a clear latch, and the bytes at `pc` and `pc + 1` decoding
to `i`, the step is the meaning of `i` at that state, `pc` still at its first byte (R24, R130, R133). -/
def Obligations.StepRunsDecodedInstruction : Prop :=
  ∀ (s : State) (i : Instr), Running s → s.pc ≠ 0xFFF →
    decode (wordOf (s.mem.read s.pc.toNat) (s.mem.read (s.pc.toNat + 1))) = .ok i →
    step s = exec i s

/-- R132, R335: a word in no row of the table is the fault `IllegalInstruction(pc)`, and nothing else
changes. -/
def Obligations.IllegalWordFaults : Prop :=
  ∀ (s : State) (e : DecodeError), Running s → s.pc ≠ 0xFFF →
    decode (wordOf (s.mem.read s.pc.toNat) (s.mem.read (s.pc.toNat + 1))) = .error e →
    step s = .next { s with fault := some (.illegalInstruction s.pc) }

/-- R137: with a clear latch a step is defined for every memory content; no step is refused, and the
only machine that answers a fault is one whose latch already holds it (R343, the spec's D13; log 1). -/
def Obligations.StepIsTotal : Prop :=
  (∀ s : State, Running s → ∃ t, step s = .next t) ∧
  (∀ (s : State) (f : Fault), step s = .fault f ↔ s.fault = some f) ∧
  ∀ (s : State) (r : Refusal), step s ≠ .refused r

/-- R343, R301: a latched fault stays. The step that takes it reports it, every later step changes
nothing and reports it again, and a run of the machine stops with it (the latch is the spec's D13;
log 1). -/
def Obligations.FaultsAreSticky : Prop :=
  (∀ (s t : State) (f : Fault), Running s → step s = .next t → t.fault = some f →
    hostStep s = (t, .faulted f) ∧ hostStep t = (t, .faulted f)) ∧
  (∀ (s : State) (f : Fault) (k : Nat), s.fault = some f → core.run (k + 1) s = .fault f)

/-- R340, R67: a step that faults changes nothing but the latch, whatever the instruction (for an access
that leaves the memory half way this is the spec's D11; log 13). -/
def Obligations.FaultChangesOnlyTheLatch : Prop :=
  ∀ (s t : State) (f : Fault), Running s → step s = .next t → t.fault = some f →
    t = { s with fault := some f }

/-- R33: no instruction reads or writes the latch, except to take a fault. -/
def Obligations.LatchIsInvisibleToInstructions : Prop :=
  ∀ (i : Instr) (s t : State) (g : Option Fault), Running s → exec i s = .next t →
    exec i { s with fault := g } = .next { t with fault := t.fault <|> g }

/-- R333: under the default `ADDR_OVERFLOW` and `STACK_DEPTH` the only faults are those numbered 1, 2, 3
and 5, and 5 only under `KEY_OOR = Fault` (the last three faults are the spec's decisions; logs 6, 7, 9). -/
def Obligations.FaultKindsUnderDefaults : Prop :=
  ∀ (s t : State) (f : Fault), Running s → s.cfg.addrOverflow = .wrap12 → s.cfg.stackDepth = none →
    step s = .next t → t.fault = some f →
    f.code ∈ [1, 2, 3, 5] ∧ (f.code = 5 → s.cfg.keyOor = .fault)

/-- R334: the accesses out of bounds, exhaustively: the fetch at 0xFFF, `Dxyn`, `Fx33`, `Fx55`, `Fx65`.
The lowest offending address is 4096, and nothing else changes (D11, D12; log 13). -/
def Obligations.OutOfBoundsAccessesFault : Prop :=
  ∀ s : State,
    (Running s → s.pc = 0xFFF → step s = .next { s with fault := some (.outOfBounds 4096) }) ∧
    (∀ (x y : Reg) (n : Fin 16), 1 ≤ n.val → 4096 < s.i.toNat + n.val →
      exec (.drw x y n) s = .next { s with fault := some (.outOfBounds 4096) }) ∧
    (∀ x : Reg, 4096 ≤ s.i.toNat + 2 →
      exec (.ldB x) s = .next { s with fault := some (.outOfBounds 4096) }) ∧
    (∀ x : Reg, 4096 ≤ s.i.toNat + x.val →
      exec (.ldMemVx x) s = .next { s with fault := some (.outOfBounds 4096) } ∧
      exec (.ldVxMem x) s = .next { s with fault := some (.outOfBounds 4096) })

/-- R26, R35, R337: what a carry out of bit 11 does where it does not wrap (`FaultOnCarry`; the spec's D2,
log 6). An instruction that only advances `pc` faults with `AddressCarry`, and a skip that skips does where `pc + 4`
carries; so does `Bnnn` on its target, `Fx1E` on its sum, and `Fx55` and `Fx65` on `i + x + 1`. An instruction
with an earlier condition in R337 takes it once that is met: `2nnn` with room on the stack, a key skip with
`V[x]` below 16 or under `KEY_OOR` = `Draw` or `Mask4`, which ask as R177 says. -/
def Obligations.OnCarryTheFaultIsTaken : Prop :=
  ∀ s : State,
    let carried : Host.Outcome State Fault Refusal := .next { s with fault := some .addressCarry }
    (¬CanAdvance s →
      (∀ (x y : Reg) (nn : Byte) (nnn : Addr),
        exec .cls s = carried ∧ exec (.seImm x nn) s = carried ∧ exec (.sneImm x nn) s = carried ∧
        exec (.seReg x y) s = carried ∧ exec (.sneReg x y) s = carried ∧ exec (.ldImm x nn) s = carried ∧
        exec (.addImm x nn) s = carried ∧ exec (.rnd x nn) s = carried ∧ exec (.ldReg x y) s = carried ∧
        exec (.or x y) s = carried ∧ exec (.and x y) s = carried ∧ exec (.xor x y) s = carried ∧
        exec (.addReg x y) s = carried ∧ exec (.sub x y) s = carried ∧ exec (.shr x y) s = carried ∧
        exec (.subn x y) s = carried ∧ exec (.shl x y) s = carried ∧ exec (.ldI nnn) s = carried ∧
        exec (.addI x) s = carried ∧ exec (.ldF x) s = carried ∧ exec (.ldVxDt x) s = carried ∧
        exec (.ldVxK x) s = carried ∧ exec (.ldDtVx x) s = carried ∧ exec (.ldStVx x) s = carried) ∧
      (∀ (x y : Reg) (n : Fin 16), n.val = 0 ∨ s.i.toNat + n.val ≤ 4096 → exec (.drw x y n) s = carried) ∧
      (∀ x : Reg, s.i.toNat + 2 < 4096 → exec (.ldB x) s = carried) ∧
      (∀ nnn : Addr, (∀ depth, s.cfg.stackDepth = some depth → s.stack.length < depth) →
        exec (.call nnn) s = carried) ∧
      (∀ x : Reg, (s.getV x).toNat < 16 ∨ s.cfg.keyOor ≠ .fault →
        exec (.skp x) s = carried ∧ exec (.sknp x) s = carried)) ∧
    (∀ (x : Reg) (nn : Byte), s.getV x = nn → ¬AddrFits s (s.pc.toNat + 4) → exec (.seImm x nn) s = carried) ∧
    (∀ (x : Reg) (nn : Byte), s.getV x ≠ nn → ¬AddrFits s (s.pc.toNat + 4) → exec (.sneImm x nn) s = carried) ∧
    (∀ x y : Reg, s.getV x = s.getV y → ¬AddrFits s (s.pc.toNat + 4) → exec (.seReg x y) s = carried) ∧
    (∀ x y : Reg, s.getV x ≠ s.getV y → ¬AddrFits s (s.pc.toNat + 4) → exec (.sneReg x y) s = carried) ∧
    (∀ x : Reg, (s.getV x).toNat < 16 ∨ s.cfg.keyOor ≠ .fault → ¬AddrFits s (s.pc.toNat + 4) →
      let asked := if 16 ≤ (s.getV x).toNat ∧ s.cfg.keyOor = .mask4 then s.getV x &&& 0x0F else s.getV x
      (s.keys.value (Config.freeKey asked) = true → exec (.skp x) s = carried) ∧
      (s.keys.value (Config.freeKey asked) = false → exec (.sknp x) s = carried)) ∧
    (∀ nnn : Addr, ¬AddrFits s (nnn.toNat + (s.getV 0).toNat) → exec (.jpV0 nnn) s = carried) ∧
    (∀ x : Reg, ¬AddrFits s (s.i.toNat + (s.getV x).toNat) → exec (.addI x) s = carried) ∧
    (∀ x : Reg, s.i.toNat + x.val < 4096 → ¬(AddrFits s (s.i.toNat + x.val + 1) ∧ CanAdvance s) →
      exec (.ldMemVx x) s = carried ∧ exec (.ldVxMem x) s = carried)

/-- R134, R27: a completed instruction that does not itself set `pc` advances it by 2, or by 4 when it is
a skip (modulo 4096, the spec's D2; log 6). -/
def Obligations.CompletedInstructionsAdvancePc : Prop :=
  ∀ (i : Instr) (s t : State), Running s → exec i s = .next t → Running t →
    match i with
    | .ret | .jp _ | .call _ | .jpV0 _ => True
    | .seImm _ _ | .sneImm _ _ | .seReg _ _ | .sneReg _ _ | .skp _ | .sknp _ => t.pc = s.pc + 2 ∨ t.pc = s.pc + 4
    | _ => t.pc = s.pc + 2

/-! ## Memory -/

/-- R60, R68: a read and a write in bounds, a read after a write, and both out of bounds. A read has no
effect: it returns no state. -/
def Obligations.MemoryReadAfterWrite : Prop :=
  ∀ (s : State) (a : Nat) (v : Byte), s.mem.wf = true →
    (a < 4096 → memRead s a = .ok (s.mem.read a) ∧
      ∃ t, memWrite s a v = .ok t ∧ t = { s with mem := t.mem } ∧ t.mem.wf = true ∧
        ∀ b, t.mem.read b = if b = a then v else s.mem.read b) ∧
    (4096 ≤ a → memRead s a = .error (.outOfBounds a) ∧ memWrite s a v = .error (.outOfBounds a))

/-- R61, R303: `Load` copies its bytes verbatim, or fails and writes nothing; the latch is not touched (the
spec's D21; log 20). -/
def Obligations.LoadCopiesOrRejects : Prop :=
  ∀ (s : State) (offset : Nat) (bytes : List Byte), s.mem.wf = true →
    (4096 < offset + bytes.length → hostLoad offset bytes s = (s, .outOfBounds)) ∧
    (offset + bytes.length ≤ 4096 →
      ∃ t, hostLoad offset bytes s = (t, .ok) ∧ t = { s with mem := t.mem } ∧ t.mem.wf = true ∧
        ∀ a, t.mem.read a =
          if offset ≤ a ∧ a < offset + bytes.length then bytes.getD (a - offset) 0 else s.mem.read a)

/-- R40, R66: only `Fx33` and `Fx55` write memory. Every other instruction leaves every byte alone. -/
def Obligations.OnlyStoresWriteMemory : Prop :=
  ∀ (i : Instr) (s t : State), writesMemory i = false → exec i s = .next t →
    ∀ a, t.mem.read a = s.mem.read a

/-- R260: only `00E0` and `Dxyn` change the display. -/
def Obligations.OnlyDisplayInstructionsWriteDisplay : Prop :=
  ∀ (i : Instr) (s t : State), writesDisplay i = false → exec i s = .next t →
    ∀ r c, pixel t.fb r c = pixel s.fb r c

/-- R36, R34: only `2nnn` and `00EE` touch the stack; only `Annn`, `Fx1E`, `Fx29`, `Fx55` and `Fx65` write
the index register. -/
def Obligations.OnlyNamedInstructionsWriteStackAndIndex : Prop :=
  ∀ (i : Instr) (s t : State), exec i s = .next t →
    (usesStack i = false → t.stack = s.stack) ∧ (writesIndex i = false → t.i = s.i)

/-- R22, R31: an instruction leaves every register but its destinations and, where it writes a flag, `VF`. -/
def Obligations.OnlyDestinationRegistersChange : Prop :=
  ∀ (i : Instr) (s t : State) (k : Reg), writesReg i k = false → exec i s = .next t → t.getV k = s.getV k

/-- R39: the display is no part of memory or registers. Take two machines that differ in the display alone:
every instruction but `Dxyn` leads them to states that differ in the display alone, and `Dxyn`, which reports
collisions, to states that differ in the display and `VF` alone. -/
def Obligations.DisplayIsIsolated : Prop :=
  (∀ (i : Instr) (s t : State) (g : Fb), (∀ x y n, i ≠ .drw x y n) → exec i s = .next t →
    ∃ u, exec i { s with fb := g } = .next u ∧ { u with fb := t.fb } = t) ∧
  (∀ (x y : Reg) (n : Fin 16) (s t : State) (g : Fb), exec (.drw x y n) s = .next t →
    ∃ u, exec (.drw x y n) { s with fb := g } = .next u ∧ { u with fb := t.fb, v := t.v } = t ∧
      ∀ k, k ≠ vF → u.getV k = t.getV k)

/-- R136: the draws and events of a completed instruction: one random byte for `Cxnn`, one answer for a
key skip, one byte for `8xy0` to `8xy3` under `AnyByte`, one event for a hook, and nothing else. The
counts are the model's own (logs 8, 10, 11, 12). -/
def Obligations.DrawsPerInstruction : Prop :=
  ∀ (i : Instr) (s t : State), Running s → exec i s = .next t → Running t →
    t.rng.taken = s.rng.taken + (match i with | .rnd _ _ => 1 | _ => 0) ∧
    t.keys.taken = s.keys.taken + (match i with | .skp _ | .sknp _ => 1 | _ => 0) ∧
    t.vfDraws.taken = s.vfDraws.taken +
      (match i with
        | .ldReg _ _ | .or _ _ | .and _ _ | .xor _ _ => if s.cfg.logicVf = .anyByte then 1 else 0
        | _ => 0) ∧
    t.hooks.length = s.hooks.length + (if isHook i then 1 else 0) ∧ t.cfg = s.cfg

/-! ## Control transfer -/

/-- R150: `00EE` pops the most recent entry into `pc`; on an empty stack it is `MissingReturnAddress`. -/
def Obligations.ReturnPopsOrFaults : Prop :=
  ∀ s : State,
    (∀ (back : Addr) (rest : List Addr), s.stack = back :: rest →
      exec .ret s = .next { s with pc := back, stack := rest }) ∧
    (s.stack = [] → exec .ret s = .next { s with fault := some .missingReturnAddress })

/-- R151: `1nnn` sets `pc` and nothing else; R138: at its own address, fetched there, it is a fixed point of
the step. -/
def Obligations.JumpSetsPc : Prop :=
  (∀ (s : State) (nnn : Addr), exec (.jp nnn) s = .next { s with pc := nnn }) ∧
  ∀ s : State, Running s → s.pc ≠ 0xFFF →
    wordOf (s.mem.read s.pc.toNat) (s.mem.read (s.pc.toNat + 1)) = encode (.jp s.pc) → step s = .next s

/-- R153: `Bnnn` sets `pc` to `nnn + V[0]`, modulo 4096 where that carries (the spec's D2; log 6). -/
def Obligations.JumpPlusV0SetsPc : Prop :=
  ∀ (s : State) (nnn : Addr), AddrFits s (nnn.toNat + (s.getV 0).toNat) →
    exec (.jpV0 nnn) s = .next { s with pc := nnn + (s.getV 0).setWidth 12 }

/-- R152, R37: `2nnn` pushes `pc + 2` and sets `pc`; a full finite stack is `StackOverflow`, tested first
(the spec's D4; log 7). -/
def Obligations.CallPushesReturnAddress : Prop :=
  ∀ (s : State) (nnn : Addr),
    ((∀ depth, s.cfg.stackDepth = some depth → s.stack.length < depth) → CanAdvance s →
      exec (.call nnn) s = .next { s with pc := nnn, stack := (s.pc + 2) :: s.stack }) ∧
    (∀ depth, s.cfg.stackDepth = some depth → depth ≤ s.stack.length →
      exec (.call nnn) s = .next { s with fault := some .stackOverflow })

/-- R152, the source's property: a call, then anything that leaves the stack as the call left it, then a
return, comes back to the instruction after the call with the stack as before it. -/
def Obligations.CallThenReturnComesBack : Prop :=
  ∀ (s t u : State) (nnn : Addr), Running s → exec (.call nnn) s = .next t → Running t →
    u.stack = t.stack → ∃ r, exec .ret u = .next r ∧ r.pc = s.pc + 2 ∧ r.stack = s.stack

/-! ## Skips -/

/-- R170 to R174: the comparing skips. Each writes `pc` and nothing else. -/
def Obligations.CompareSkips : Prop :=
  ∀ (s : State) (x y : Reg) (nn : Byte),
    (AddrFits s (s.pc.toNat + if s.getV x = nn then 4 else 2) →
      exec (.seImm x nn) s = .next { s with pc := if s.getV x = nn then s.pc + 4 else s.pc + 2 }) ∧
    (AddrFits s (s.pc.toNat + if s.getV x ≠ nn then 4 else 2) →
      exec (.sneImm x nn) s = .next { s with pc := if s.getV x ≠ nn then s.pc + 4 else s.pc + 2 }) ∧
    (AddrFits s (s.pc.toNat + if s.getV x = s.getV y then 4 else 2) →
      exec (.seReg x y) s = .next { s with pc := if s.getV x = s.getV y then s.pc + 4 else s.pc + 2 }) ∧
    (AddrFits s (s.pc.toNat + if s.getV x ≠ s.getV y then 4 else 2) →
      exec (.sneReg x y) s = .next { s with pc := if s.getV x ≠ s.getV y then s.pc + 4 else s.pc + 2 })

/-- R175 to R177: the key skips ask about key `V[x]` and skip on the answer, or on its contrary. The answer
is the next value of the source of answers, free unless the host injected one (the spec's D29; log 11). -/
def Obligations.KeySkips : Prop :=
  ∀ (s : State) (x : Reg), (s.getV x).toNat < 16 →
    let pressed := s.keys.value (Config.freeKey (s.getV x))
    (AddrFits s (s.pc.toNat + if pressed then 4 else 2) →
      exec (.skp x) s =
        .next { s with pc := if pressed then s.pc + 4 else s.pc + 2, keys := s.keys.rest }) ∧
    (AddrFits s (s.pc.toNat + if pressed then 2 else 4) →
      exec (.sknp x) s =
        .next { s with pc := if pressed then s.pc + 2 else s.pc + 4, keys := s.keys.rest })

/-- R177: a key number of 16 or more is a fault, or a draw, or the low four bits, by `KEY_OOR` (the spec's
D9; log 9). -/
def Obligations.KeySkipsOutOfRange : Prop :=
  ∀ (s : State) (x : Reg), 16 ≤ (s.getV x).toNat →
    (s.cfg.keyOor = .fault →
      exec (.skp x) s = .next { s with fault := some (.keyOutOfRange (s.getV x)) } ∧
      exec (.sknp x) s = .next { s with fault := some (.keyOutOfRange (s.getV x)) }) ∧
    (s.cfg.keyOor ≠ .fault →
      let asked := if s.cfg.keyOor = .mask4 then s.getV x &&& 0x0F else s.getV x
      let pressed := s.keys.value (Config.freeKey asked)
      (AddrFits s (s.pc.toNat + if pressed then 4 else 2) →
        exec (.skp x) s =
          .next { s with pc := if pressed then s.pc + 4 else s.pc + 2, keys := s.keys.rest }) ∧
      (AddrFits s (s.pc.toNat + if pressed then 2 else 4) →
        exec (.sknp x) s =
          .next { s with pc := if pressed then s.pc + 2 else s.pc + 4, keys := s.keys.rest }))

/-! ## Load, add, random -/

/-- R190, R191: `6xnn` and `7xnn`; neither writes a flag. -/
def Obligations.LoadAndAddImmediate : Prop :=
  ∀ (s : State) (x : Reg) (nn : Byte), CanAdvance s →
    exec (.ldImm x nn) s = .next { s with v := s.v.set x nn, pc := s.pc + 2 } ∧
    exec (.addImm x nn) s = .next { s with v := s.v.set x (s.v[x] + nn), pc := s.pc + 2 }

/-- R192: `Cxnn` consumes one byte of the random source, the next injected one or a free value (the spec's
D18; log 10), and loads its AND with `nn`. -/
def Obligations.RandomLoad : Prop :=
  ∀ (s : State) (x : Reg) (nn : Byte), CanAdvance s →
    exec (.rnd x nn) s =
      .next { s with v := s.v.set x (s.rng.value Config.freeRandom &&& nn), pc := s.pc + 2, rng := s.rng.rest }

/-- R192: whatever byte is drawn, the bits that are 0 in `nn` are 0 in the result; and every byte can be
drawn. -/
def Obligations.RandomBytesAreMaskedAndFree : Prop :=
  (∀ (s t : State) (x : Reg) (nn : Byte), Running s → exec (.rnd x nn) s = .next t → Running t →
    ∀ k, nn.getLsbD k = false → (t.getV x).getLsbD k = false) ∧
  ∀ (s : State) (x : Reg) (nn r : Byte), CanAdvance s →
    ∃ (d : Draws Byte) (t : State), exec (.rnd x nn) { s with rng := d } = .next t ∧ t.getV x = r &&& nn

/-! ## The ALU -/

/-- R203 to R207: `8xy0` to `8xy3`, with `VF` per `LOGIC_VF` written after the result: a draw, zero, or not
written (the spec's D6, D7; logs 8, 16). -/
def Obligations.LogicOperations : Prop :=
  ∀ (s : State) (x y : Reg) (i : Instr) (r : Byte),
    ((i = .ldReg x y ∧ r = s.v[y]) ∨ (i = .or x y ∧ r = s.v[x] ||| s.v[y]) ∨
      (i = .and x y ∧ r = s.v[x] &&& s.v[y]) ∨ (i = .xor x y ∧ r = s.v[x] ^^^ s.v[y])) →
    CanAdvance s →
    (s.cfg.logicVf = .anyByte →
      exec i s = .next { s with v := (s.v.set x r).set vF (s.vfDraws.value Config.freeLogicVf),
                                pc := s.pc + 2, vfDraws := s.vfDraws.rest }) ∧
    (s.cfg.logicVf = .zero → exec i s = .next { s with v := (s.v.set x r).set vF 0, pc := s.pc + 2 }) ∧
    (s.cfg.logicVf = .untouched → exec i s = .next { s with v := s.v.set x r, pc := s.pc + 2 })

/-- R203: `AnyByte` admits every final state that `Zero` or `Untouched` admits: some draw leads to the same
state, the parameters and the record of the draws apart, which are the model's own (logs 5, 8). -/
def Obligations.AnyByteAdmitsZeroAndUntouched : Prop :=
  ∀ (s t : State) (x y : Reg) (i : Instr), i ∈ [Instr.ldReg x y, .or x y, .and x y, .xor x y] →
    s.cfg.logicVf ≠ .anyByte → exec i s = .next t →
    ∃ (d : Byte) (u : State),
      exec i { s with vfDraws := ⟨[d], 0⟩, cfg := { s.cfg with logicVf := .anyByte } } = .next u ∧
      u = { t with cfg := u.cfg, vfDraws := u.vfDraws }

/-- R208 to R212: the operations with a flag: the result modulo 256 first, then the flag in `VF`, so that
with `x = 0xF` the flag stays (R201, the spec's D6; log 16). `8xy6` and `8xyE` do not depend on `y`. -/
def Obligations.FlaggedAluOperations : Prop :=
  ∀ (s : State) (x y : Reg), CanAdvance s →
    let a := s.v[x]
    let b := s.v[y]
    exec (.addReg x y) s =
      .next { s with v := (s.v.set x (a + b)).set vF (if 255 < a.toNat + b.toNat then 1 else 0), pc := s.pc + 2 } ∧
    exec (.sub x y) s =
      .next { s with v := (s.v.set x (a - b)).set vF (if b.toNat ≤ a.toNat then 1 else 0), pc := s.pc + 2 } ∧
    exec (.shr x y) s =
      .next { s with v := (s.v.set x (a >>> 1)).set vF (if a.getLsbD 0 then 1 else 0), pc := s.pc + 2 } ∧
    exec (.subn x y) s =
      .next { s with v := (s.v.set x (b - a)).set vF (if a.toNat ≤ b.toNat then 1 else 0), pc := s.pc + 2 } ∧
    exec (.shl x y) s =
      .next { s with v := (s.v.set x (a <<< 1)).set vF (if a.getLsbD 7 then 1 else 0), pc := s.pc + 2 }

/-- R202: result and flag together are the exact number, for every destination but `VF` itself. -/
def Obligations.AluArithmeticLaws : Prop :=
  ∀ (s t : State) (x y : Reg), Running s → x ≠ vF → Running t →
    let a := (s.getV x).toNat
    let b := (s.getV y).toNat
    let r := (t.getV x).toNat
    let f := (t.getV vF).toNat
    (exec (.addReg x y) s = .next t → r + 256 * f = a + b) ∧
    (exec (.sub x y) s = .next t → r + b + 256 * f = a + 256) ∧
    (exec (.subn x y) s = .next t → r + a + 256 * f = b + 256) ∧
    (exec (.shr x y) s = .next t → 2 * r + f = a) ∧
    (exec (.shl x y) s = .next t → r + 256 * f = 2 * a)

/-- R28: a flag value is the byte 0x00 or 0x01. With `x = 0xF` this rests on the flag being written last (R30,
the spec's D6; log 16). -/
def Obligations.FlagsAreZeroOrOne : Prop :=
  ∀ (s t : State) (x y : Reg) (n : Fin 16) (i : Instr),
    i ∈ [Instr.addReg x y, .sub x y, .shr x y, .subn x y, .shl x y, .drw x y n] →
    Running s → exec i s = .next t → Running t → t.getV vF = 0 ∨ t.getV vF = 1

/-! ## Index register and memory transfer -/

/-- R230, R231, R232: the writes of `i`; none sets a flag. That `Fx1E` wraps, or faults, where its sum carries
is the spec's D2 (R35; log 6). -/
def Obligations.IndexRegisterWrites : Prop :=
  ∀ (s : State) (x : Reg) (nnn : Addr), CanAdvance s →
    exec (.ldI nnn) s = .next { s with i := nnn, pc := s.pc + 2 } ∧
    (AddrFits s (s.i.toNat + s.v[x].toNat) →
      exec (.addI x) s = .next { s with i := s.i + s.v[x].setWidth 12, pc := s.pc + 2 }) ∧
    exec (.ldF x) s = .next { s with i := BitVec.ofNat 12 (s.v[x].toNat * 5), pc := s.pc + 2 }

/-- R233: `Fx33` stores the three decimal digits at `i`, `i + 1`, `i + 2`; every other byte, every register
and `i` are unchanged. -/
def Obligations.StoreDecimalDigits : Prop :=
  ∀ (s : State) (x : Reg), s.mem.wf = true → s.i.toNat + 2 < 4096 → CanAdvance s →
    ∃ t, exec (.ldB x) s = .next t ∧ t = { s with mem := t.mem, pc := s.pc + 2 } ∧
      (t.mem.read s.i.toNat).toNat = (s.getV x).toNat / 100 ∧
      (t.mem.read (s.i.toNat + 1)).toNat = (s.getV x).toNat / 10 % 10 ∧
      (t.mem.read (s.i.toNat + 2)).toNat = (s.getV x).toNat % 10 ∧
      ∀ a, a < s.i.toNat ∨ s.i.toNat + 2 < a → t.mem.read a = s.mem.read a

/-- R234: `Fx55` stores `V[0]` to `V[x]` at `i` to `i + x` and advances `i` by `x + 1`; every other byte and
every register are unchanged. -/
def Obligations.StoreRegisters : Prop :=
  ∀ (s : State) (x : Reg), s.mem.wf = true → s.i.toNat + x.val < 4096 →
    AddrFits s (s.i.toNat + x.val + 1) → CanAdvance s →
    ∃ t, exec (.ldMemVx x) s = .next t ∧
      t = { s with mem := t.mem, i := s.i + BitVec.ofNat 12 (x.val + 1), pc := s.pc + 2 } ∧
      (∀ k : Reg, k ≤ x → t.mem.read (s.i.toNat + k.val) = s.getV k) ∧
      ∀ a, a < s.i.toNat ∨ s.i.toNat + x.val < a → t.mem.read a = s.mem.read a

/-- R235: `Fx65` loads `V[0]` to `V[x]` from `i` to `i + x` and advances `i` by `x + 1`; the other registers
and all of memory are unchanged. -/
def Obligations.LoadRegisters : Prop :=
  ∀ (s : State) (x : Reg), s.i.toNat + x.val < 4096 → AddrFits s (s.i.toNat + x.val + 1) → CanAdvance s →
    ∃ t, exec (.ldVxMem x) s = .next t ∧
      t = { s with v := t.v, i := s.i + BitVec.ofNat 12 (x.val + 1), pc := s.pc + 2 } ∧
      ∀ k : Reg, t.getV k = if k ≤ x then s.mem.read (s.i.toNat + k.val) else s.getV k

/-- R234, R235: loading from where the registers were stored gives them back, whatever the registers hold
in between. -/
def Obligations.StoreThenLoadGivesRegistersBack : Prop :=
  ∀ (s t u r : State) (x : Reg), s.mem.wf = true → Running s →
    exec (.ldMemVx x) s = .next t → Running t →
    u.mem = t.mem → u.i = s.i → Running u → exec (.ldVxMem x) u = .next r → Running r →
    ∀ k : Reg, k ≤ x → r.getV k = s.getV k

/-- R76: after a completed `Fx55` or `Fx33` the next fetch, at any `pc` but 0xFFF, reads the bytes stored, and
the old bytes at the other addresses (one agent in program order is the spec's D22; log 27). -/
def Obligations.StoreIsSeenByFetch : Prop :=
  ∀ (s t : State) (x : Reg) (pc : Addr), s.mem.wf = true → Running s → Running t → pc ≠ 0xFFF →
    (exec (.ldMemVx x) s = .next t →
      let now (a : Nat) : Byte :=
        if s.i.toNat ≤ a ∧ a ≤ s.i.toNat + x.val then s.v.toList.getD (a - s.i.toNat) 0 else s.mem.read a
      fetch { t with pc := pc } = .ok [now pc.toNat, now (pc.toNat + 1)]) ∧
    (exec (.ldB x) s = .next t →
      let b := (s.getV x).toNat
      let now (a : Nat) : Byte :=
        if a = s.i.toNat then BitVec.ofNat 8 (b / 100)
        else if a = s.i.toNat + 1 then BitVec.ofNat 8 (b / 10 % 10)
        else if a = s.i.toNat + 2 then BitVec.ofNat 8 (b % 10)
        else s.mem.read a
      fetch { t with pc := pc } = .ok [now pc.toNat, now (pc.toNat + 1)])

/-! ## The display -/

/-- R261, R270: `00E0` turns every pixel off and writes nothing else but `pc`. -/
def Obligations.ClearScreen : Prop :=
  ∀ s : State, CanAdvance s →
    ∃ t, exec .cls s = .next t ∧ t = { s with fb := t.fb, pc := s.pc + 2 } ∧ ∀ r c, pixel t.fb r c = false

/-- R262, R263, R271: `Dxyn` computes the sprite in closed form. Each pixel is XORed with the bit that the
`n` bytes at `i` lay over it from column `V[x]`, row `V[y]`, modulo 64 and 32; `VF` says whether a lit pixel
was erased; nothing else changes but `pc`. With `x` or `y` = 0xF the old `VF` is the coordinate and the flag
stays (R30, the spec's D6; log 16). -/
def Obligations.DrawSprite : Prop :=
  ∀ (s : State) (x y : Reg) (n : Fin 16), n.val = 0 ∨ s.i.toNat + n.val ≤ 4096 → CanAdvance s →
    let rows := (List.range n.val).map fun k => s.mem.read (s.i.toNat + k)
    let bit := spriteAt rows (s.getV x) (s.getV y)
    ∃ t, exec (.drw x y n) s = .next t ∧
      t = { s with fb := t.fb, pc := s.pc + 2,
                   v := s.v.set vF (if ∃ r c, pixel s.fb r c = true ∧ bit r c = true then 1 else 0) } ∧
      ∀ r c, pixel t.fb r c = (pixel s.fb r c ^^ bit r c)

/-- R266 (a): blitting the same sprite at the same origin twice restores the display, for a sprite of any
length, 32 rows and more among them. -/
def Obligations.BlitTwiceRestoresDisplay : Prop :=
  ∀ (rows : List Byte) (ox oy : Byte) (fb : Fb), (blit rows ox oy (blit rows ox oy fb).fb).fb = fb

/-- R263, R266 (b) to (d): a blit of at most 32 rows collides iff a pixel under a 1 bit was on; the same blit
again, iff one was off. So an all-zero sprite changes nothing and never collides, and on a clear
display nothing collides. -/
def Obligations.BlitCollisionLaws : Prop :=
  ∀ (rows : List Byte) (ox oy : Byte) (fb : Fb), rows.length ≤ 32 →
    ((blit rows ox oy fb).collision = true ↔
      ∃ r c, pixel fb r c = true ∧ spriteAt rows ox oy r c = true) ∧
    ((blit rows ox oy (blit rows ox oy fb).fb).collision = true ↔
      ∃ r c, pixel fb r c = false ∧ spriteAt rows ox oy r c = true) ∧
    ((∀ row ∈ rows, row = 0) → blit rows ox oy fb = ⟨fb, false⟩) ∧
    (blit rows ox oy clearDisplay).collision = false

/-- R264: the origin is reduced modulo 64 and modulo 32, for a sprite of any length. -/
def Obligations.BlitOriginWraps : Prop :=
  ∀ (rows : List Byte) (ox oy : Byte) (fb : Fb),
    blit rows (ox + 64) oy fb = blit rows ox oy fb ∧ blit rows ox (oy + 32) fb = blit rows ox oy fb

/-! ## Hooks -/

/-- R290 to R295: the hooks change nothing but `pc`; each emits its event, which the model lists (the spec's
D10; log 12). -/
def Obligations.HooksOnlyEmitEvents : Prop :=
  ∀ (s : State) (x : Reg), CanAdvance s →
    exec (.ldVxDt x) s = .next { s with pc := s.pc + 2, hooks := s.hooks ++ [.readDelay x] } ∧
    exec (.ldVxK x) s = .next { s with pc := s.pc + 2, hooks := s.hooks ++ [.waitKey x] } ∧
    exec (.ldDtVx x) s = .next { s with pc := s.pc + 2, hooks := s.hooks ++ [.writeDelay x s.v[x]] } ∧
    exec (.ldStVx x) s = .next { s with pc := s.pc + 2, hooks := s.hooks ++ [.writeSound x s.v[x]] }
end

