-- ==== Sys2Proof/Laws/Blit.lean ====
section
/-! SUPPORT. What the loops of the blit engine compute, in closed form: the pixels after a sprite
row and after a sprite, and the collision. -/

namespace Sys2Proof.Machine

/-- Displays that agree pixel by pixel are equal. -/
theorem fb_ext {a b : Fb} (h : ∀ r c, pixel a r c = pixel b r c) : a = b := by
  apply Vector.ext
  intro i hi
  apply Vector.ext
  intro j hj
  exact h ⟨i, hi⟩ ⟨j, hj⟩

@[simp] theorem pixel_clear (r : Fin 32) (c : Fin 64) : pixel clearDisplay r c = false := by
  simp [pixel, clearDisplay, Fb.clear]

theorem pixel_setPixel (fb : Fb) (r r' : Fin 32) (c c' : Fin 64) (b : Bool) :
    pixel (setPixel fb r c b) r' c' = if r' = r ∧ c' = c then b else pixel fb r' c' := by
  by_cases hr : r' = r
  · subst hr
    by_cases hc : c' = c
    · subst hc; simp [pixel, setPixel]
    · have hc2 : c.val ≠ c'.val := fun h => hc (Fin.ext h.symm)
      simp [pixel, setPixel, hc, hc2]
  · have hr2 : r.val ≠ r'.val := fun h => hr (Fin.ext h.symm)
    simp [pixel, setPixel, hr, hr2]

/-- One pixel: XOR there, nothing elsewhere (R262). -/
theorem pixel_blitPixel (d : Drawing) (r r' : Fin 32) (c c' : Fin 64) (bit : Bool) :
    pixel (blitPixel r c bit d).fb r' c' = (pixel d.fb r' c' ^^ (decide (r' = r ∧ c' = c) && bit)) := by
  simp only [blitPixel, pixel_setPixel]
  by_cases h : r' = r ∧ c' = c
  · obtain ⟨rfl, rfl⟩ := h; simp
  · simp [h]

/-- One pixel: a collision when a lit pixel is erased (R263). -/
theorem collision_blitPixel (d : Drawing) (r : Fin 32) (c : Fin 64) (bit : Bool) :
    (blitPixel r c bit d).collision = true ↔
      d.collision = true ∨ pixel d.fb r c = true ∧ bit = true := by
  simp [blitPixel]

/-- The bit a sprite row at column `ox` lays over column `c`: it is `b` columns right of the origin,
modulo 64. -/
def rowBit (row : Byte) (ox : Byte) (c : Fin 64) : Bool :=
  let b := (c.val + 256 - ox.toNat) % 64
  decide (b < 8) && row.getLsbD (7 - b)

theorem spriteCol_iff (ox : Byte) (b : Nat) (hb : b < 64) (c : Fin 64) :
    c = spriteCol ox b ↔ (c.val + 256 - ox.toNat) % 64 = b := by
  have h1 := c.isLt
  have h2 := ox.isLt
  simp only [spriteCol, Fin.ext_iff, Fin.val_ofNat]
  omega

theorem spriteRow_iff (oy : Byte) (j : Nat) (hj : j < 32) (r : Fin 32) :
    r = spriteRow oy j ↔ (r.val + 256 - oy.toNat) % 32 = j := by
  have h1 := r.isLt
  have h2 := oy.isLt
  simp only [spriteRow, Fin.ext_iff, Fin.val_ofNat]
  omega

/-- The first `k` bits of a sprite row: the pixels. -/
theorem pixel_foldl_row (row ox oy : Byte) (j : Nat) (d : Drawing) (k : Nat) (hk : k ≤ 8)
    (r : Fin 32) (c : Fin 64) :
    pixel ((List.range k).foldl
        (fun d b => blitPixel (spriteRow oy j) (spriteCol ox b) (spriteBit row b) d) d).fb r c =
      (pixel d.fb r c ^^ (decide (r = spriteRow oy j) &&
        (decide ((c.val + 256 - ox.toNat) % 64 < k) && row.getLsbD (7 - (c.val + 256 - ox.toNat) % 64)))) := by
  induction k with
  | zero => simp
  | succ k ih =>
    rw [List.range_succ, List.foldl_append, List.foldl_cons, List.foldl_nil, pixel_blitPixel, ih (by omega)]
    have hiff := spriteCol_iff ox k (by omega) c
    generalize (c.val + 256 - ox.toNat) % 64 = q at hiff ⊢
    by_cases hc : c = spriteCol ox k
    · obtain rfl := hiff.1 hc
      simp [← hc, spriteBit]
    · have hlt : q < k + 1 ↔ q < k := by have := mt hiff.2 hc; omega
      simp [hc, hlt]

/-- A sprite row: the pixels (R262). -/
theorem pixel_blitRow (row ox oy : Byte) (j : Nat) (d : Drawing) (r : Fin 32) (c : Fin 64) :
    pixel (blitRow row ox oy j d).fb r c =
      (pixel d.fb r c ^^ (decide (r = spriteRow oy j) && rowBit row ox c)) :=
  pixel_foldl_row row ox oy j d 8 (Nat.le_refl 8) r c

/-- The first `k` bits of a sprite row: the collision. -/
theorem collision_foldl_row (row ox oy : Byte) (j : Nat) (d : Drawing) (k : Nat) (hk : k ≤ 8) :
    ((List.range k).foldl
        (fun d b => blitPixel (spriteRow oy j) (spriteCol ox b) (spriteBit row b) d) d).collision = true ↔
      d.collision = true ∨ ∃ b < k, pixel d.fb (spriteRow oy j) (spriteCol ox b) = true ∧ spriteBit row b = true := by
  induction k with
  | zero => simp
  | succ k ih =>
    rw [List.range_succ, List.foldl_append, List.foldl_cons, List.foldl_nil]
    have hcol : ∀ b < k, spriteCol ox k ≠ spriteCol ox b := fun b hb h => by
      have h1 := (spriteCol_iff ox k (by omega) _).1 rfl
      have h2 := (spriteCol_iff ox b (by omega) _).1 h
      omega
    have hpix := pixel_foldl_row row ox oy j d k (by omega) (spriteRow oy j) (spriteCol ox k)
    rw [(spriteCol_iff ox k (by omega) _).1 rfl] at hpix
    simp only [Nat.lt_irrefl, decide_false, Bool.false_and, Bool.and_false, Bool.xor_false] at hpix
    rw [collision_blitPixel, ih (by omega), hpix, or_assoc]
    refine or_congr Iff.rfl ⟨?_, ?_⟩
    · rintro (⟨b, hb, h⟩ | h)
      · exact ⟨b, by omega, h⟩
      · exact ⟨k, by omega, h⟩
    · rintro ⟨b, hb, h⟩
      by_cases hbk : b = k
      · subst hbk; exact .inr h
      · exact .inl ⟨b, by omega, h⟩

/-- A sprite row: the collision is an erased pixel under a 1 bit (R263). -/
theorem collision_blitRow (row ox oy : Byte) (j : Nat) (d : Drawing) :
    (blitRow row ox oy j d).collision = true ↔
      d.collision = true ∨ ∃ c, pixel d.fb (spriteRow oy j) c = true ∧ rowBit row ox c = true := by
  rw [blitRow, collision_foldl_row row ox oy j d 8 (Nat.le_refl 8)]
  refine or_congr Iff.rfl ⟨?_, ?_⟩
  · rintro ⟨b, hb, hp, hs⟩
    refine ⟨spriteCol ox b, hp, ?_⟩
    simp only [rowBit, (spriteCol_iff ox b (by omega) _).1 rfl]
    simpa [hb, spriteBit] using hs
  · rintro ⟨c, hp, hs⟩
    simp only [rowBit, Bool.and_eq_true, decide_eq_true_eq] at hs
    have hc := (spriteCol_iff ox _ (by omega) c).2 rfl
    exact ⟨_, hs.1, by rwa [← hc], hs.2⟩

/-- A sprite from row index `j` on, at most 32 rows in all: the pixels. -/
theorem pixel_blitRows (ox oy : Byte) (j : Nat) (rows : List Byte) (d : Drawing)
    (h : j + rows.length ≤ 32) (r : Fin 32) (c : Fin 64) :
    pixel (blitRows ox oy j rows d).fb r c =
      (pixel d.fb r c ^^ (decide (j ≤ (r.val + 256 - oy.toNat) % 32) &&
        rowBit (rows.getD ((r.val + 256 - oy.toNat) % 32 - j) 0) ox c)) := by
  induction rows generalizing j d with
  | nil => simp [blitRows, rowBit]
  | cons row rows ih =>
    simp only [List.length_cons] at h
    rw [blitRows, ih (j + 1) _ (by omega), pixel_blitRow]
    have hiff := spriteRow_iff oy j (by omega) r
    generalize (r.val + 256 - oy.toNat) % 32 = q at hiff ⊢
    by_cases hr : r = spriteRow oy j
    · obtain rfl := hiff.1 hr
      simp [hr]
    · have hne := mt hiff.2 hr
      by_cases hq : j + 1 ≤ q
      · have hq2 : j ≤ q := by omega
        rw [show q - j = q - (j + 1) + 1 by omega]
        simp [hr, hq, hq2]
      · have hq2 : ¬j ≤ q := by omega
        simp [hr, hq, hq2]

/-- A sprite from row index `j` on, at most 32 rows in all: the collision. -/
theorem collision_blitRows (ox oy : Byte) (j : Nat) (rows : List Byte) (d : Drawing)
    (h : j + rows.length ≤ 32) :
    (blitRows ox oy j rows d).collision = true ↔
      d.collision = true ∨ ∃ r c, pixel d.fb r c = true ∧ j ≤ (r.val + 256 - oy.toNat) % 32 ∧
        rowBit (rows.getD ((r.val + 256 - oy.toNat) % 32 - j) 0) ox c = true := by
  induction rows generalizing j d with
  | nil => simp [blitRows, rowBit]
  | cons row rows ih =>
    simp only [List.length_cons] at h
    rw [blitRows, ih (j + 1) _ (by omega), collision_blitRow, or_assoc]
    refine or_congr Iff.rfl ⟨?_, ?_⟩
    · rintro (⟨c, hp, hs⟩ | ⟨r, c, hp, hq, hs⟩)
      · have hr := (spriteRow_iff oy j (by omega) _).1 rfl
        exact ⟨spriteRow oy j, c, hp, by omega, by simpa [hr] using hs⟩
      · have hne : r ≠ spriteRow oy j := fun hr => by
          have := (spriteRow_iff oy j (by omega) r).1 hr; omega
        rw [pixel_blitRow] at hp
        refine ⟨r, c, by simpa [hne] using hp, by omega, ?_⟩
        rw [show (r.val + 256 - oy.toNat) % 32 - j = (r.val + 256 - oy.toNat) % 32 - (j + 1) + 1 by omega]
        simpa using hs
    · rintro ⟨r, c, hp, hq, hs⟩
      by_cases hr : r = spriteRow oy j
      · have hq' := (spriteRow_iff oy j (by omega) r).1 hr
        refine .inl ⟨c, hr ▸ hp, ?_⟩
        simpa [hq'] using hs
      · have hne := mt (spriteRow_iff oy j (by omega) r).2 hr
        refine .inr ⟨r, c, ?_, by omega, ?_⟩
        · rw [pixel_blitRow]; simpa [hr] using hp
        · rw [show (r.val + 256 - oy.toNat) % 32 - j = (r.val + 256 - oy.toNat) % 32 - (j + 1) + 1 by omega] at hs
          simpa using hs

/-- Whatever the number of rows, a blit XORs the display with a pattern that does not depend on it. -/
theorem blitRows_pattern (ox oy : Byte) (j : Nat) (rows : List Byte) :
    ∃ pattern : Fin 32 → Fin 64 → Bool, ∀ d r c,
      pixel (blitRows ox oy j rows d).fb r c = (pixel d.fb r c ^^ pattern r c) := by
  induction rows generalizing j with
  | nil => exact ⟨fun _ _ => false, fun d r c => by simp [blitRows]⟩
  | cons row rows ih =>
    obtain ⟨p, hp⟩ := ih (j + 1)
    refine ⟨fun r c => (decide (r = spriteRow oy j) && rowBit row ox c) ^^ p r c, fun d r c => ?_⟩
    rw [blitRows, hp, pixel_blitRow, Bool.xor_assoc]

end Sys2Proof.Machine
end

