-- ==== Sys2Proof/Laws/Decode.lean ====
section
/-! SUPPORT. The fields of a packed word, the bytes of a word, and a word as its fields: what a
round trip between decoder and encoder rests on. -/

namespace Sys2Proof

@[simp] theorem regOf_nibOf (k : Fin 16) : regOf (nibOf k) = k := by
  apply Fin.ext
  have := k.isLt
  simp [regOf, nibOf]

@[simp] theorem nibOf_regOf (b : BitVec 4) : nibOf (regOf b) = b := by
  apply BitVec.eq_of_toNat_eq
  have := b.isLt
  simp [regOf, nibOf]

theorem fieldsOf_packXY (op : BitVec 4) (x y : Reg) (n : BitVec 4) :
    fieldsOf (packXY op x y n) =
      { op := op, x := nibOf x, y := nibOf y, n := n, nn := nibOf y ++ n, nnn := nibOf x ++ (nibOf y ++ n) } := by
  simp only [fieldsOf, packXY, Fields.mk.injEq]
  refine ⟨?_, ?_, ?_, ?_, ?_, ?_⟩ <;>
    (apply BitVec.eq_of_getLsbD_eq; intro i hi; simp; grind)

theorem fieldsOf_packX (op : BitVec 4) (x : Reg) (nn : Byte) :
    fieldsOf (packX op x nn) =
      { op := op, x := nibOf x, y := nn.extractLsb' 4 4, n := nn.extractLsb' 0 4, nn := nn,
        nnn := nibOf x ++ nn } := by
  simp only [fieldsOf, packX, Fields.mk.injEq]
  refine ⟨?_, ?_, ?_, ?_, ?_, ?_⟩ <;>
    (apply BitVec.eq_of_getLsbD_eq; intro i hi; simp; grind)

theorem fieldsOf_packN (op : BitVec 4) (nnn : Addr) :
    fieldsOf (packN op nnn) =
      { op := op, x := nnn.extractLsb' 8 4, y := nnn.extractLsb' 4 4, n := nnn.extractLsb' 0 4,
        nn := nnn.extractLsb' 0 8, nnn := nnn } := by
  simp only [fieldsOf, packN, Fields.mk.injEq]
  refine ⟨?_, ?_, ?_, ?_, ?_, ?_⟩ <;>
    (apply BitVec.eq_of_getLsbD_eq; intro i hi; simp; grind)

/-- A word is its fields `op`, `x`, `y`, `n` (R91). -/
theorem word_eq_xyn (w : Word) :
    w = (fieldsOf w).op ++ (fieldsOf w).x ++ (fieldsOf w).y ++ (fieldsOf w).n := by
  apply BitVec.eq_of_getLsbD_eq; intro i hi; simp [fieldsOf]; grind

/-- A word is its fields `op`, `x`, `nn`. -/
theorem word_eq_xnn (w : Word) : w = (fieldsOf w).op ++ (fieldsOf w).x ++ (fieldsOf w).nn := by
  apply BitVec.eq_of_getLsbD_eq; intro i hi; simp [fieldsOf]; grind

/-- A word is its fields `op`, `nnn`. -/
theorem word_eq_nnn (w : Word) : w = (fieldsOf w).op ++ (fieldsOf w).nnn := by
  apply BitVec.eq_of_getLsbD_eq; intro i hi; simp [fieldsOf]; grind

/-- The bytes of a word give the word back (R62). -/
@[simp] theorem wordOf_bytes (w : Word) : wordOf (highByte w) (lowByte w) = w := by
  apply BitVec.eq_of_getLsbD_eq; intro i hi; simp [wordOf, highByte, lowByte]; grind

@[simp] theorem highByte_wordOf (hi lo : Byte) : highByte (wordOf hi lo) = hi := by
  apply BitVec.eq_of_getLsbD_eq; intro i hi; simp [wordOf, highByte]; grind

@[simp] theorem lowByte_wordOf (hi lo : Byte) : lowByte (wordOf hi lo) = lo := by
  apply BitVec.eq_of_getLsbD_eq; intro i hi; simp [wordOf, lowByte]; grind

@[simp] theorem tableWord_16 (w : Word) : tableWord 16 w.toNat = w := by simp [tableWord]

theorem decodeBytes_wordBytes (w : Word) (rest : List Byte) :
    decodeBytes (wordBytes w ++ rest) = (decode w).map fun i => (i, rest) := by
  simp only [wordBytes, List.cons_append, List.nil_append, decodeBytes, wordOf_bytes]
  cases decode w <;> rfl

/-! What is left of a packed word under the masks of the table (R94). -/

/-- Two words with the same fields `op`, `x`, `y`, `n` are equal. -/
theorem word_ext {w w' : Word} (hop : (fieldsOf w).op = (fieldsOf w').op)
    (hx : (fieldsOf w).x = (fieldsOf w').x) (hy : (fieldsOf w).y = (fieldsOf w').y)
    (hn : (fieldsOf w).n = (fieldsOf w').n) : w = w' := by
  rw [word_eq_xyn w, word_eq_xyn w', hop, hx, hy, hn]

theorem fieldsOf_and_op (w m : Word) : (fieldsOf (w &&& m)).op = (fieldsOf w).op &&& (fieldsOf m).op := by
  apply BitVec.eq_of_getLsbD_eq; intro i hi; simp [fieldsOf]; grind

theorem fieldsOf_and_x (w m : Word) : (fieldsOf (w &&& m)).x = (fieldsOf w).x &&& (fieldsOf m).x := by
  apply BitVec.eq_of_getLsbD_eq; intro i hi; simp [fieldsOf]; grind

theorem fieldsOf_and_y (w m : Word) : (fieldsOf (w &&& m)).y = (fieldsOf w).y &&& (fieldsOf m).y := by
  apply BitVec.eq_of_getLsbD_eq; intro i hi; simp [fieldsOf]; grind

theorem fieldsOf_and_n (w m : Word) : (fieldsOf (w &&& m)).n = (fieldsOf w).n &&& (fieldsOf m).n := by
  apply BitVec.eq_of_getLsbD_eq; intro i hi; simp [fieldsOf]; grind

theorem nib_and_F (b : BitVec 4) : b &&& 0xF = b := BitVec.and_allOnes

theorem packXY_mask_F00F (op : BitVec 4) (x y : Reg) (n : BitVec 4) :
    packXY op x y n &&& 0xF00F = packXY op 0 0 n := by
  apply word_ext <;>
    simp only [fieldsOf_and_op, fieldsOf_and_x, fieldsOf_and_y, fieldsOf_and_n, fieldsOf_packXY]
  · exact nib_and_F op
  · exact BitVec.and_zero
  · exact BitVec.and_zero
  · exact nib_and_F n

theorem packXY_mask_F000 (op : BitVec 4) (x y : Reg) (n : BitVec 4) :
    packXY op x y n &&& 0xF000 = packXY op 0 0 0 := by
  apply word_ext <;>
    simp only [fieldsOf_and_op, fieldsOf_and_x, fieldsOf_and_y, fieldsOf_and_n, fieldsOf_packXY]
  · exact nib_and_F op
  · exact BitVec.and_zero
  · exact BitVec.and_zero
  · exact BitVec.and_zero

theorem packX_mask_F0FF (op : BitVec 4) (x : Reg) (nn : Byte) :
    packX op x nn &&& 0xF0FF = packX op 0 nn := by
  apply word_ext <;>
    simp only [fieldsOf_and_op, fieldsOf_and_x, fieldsOf_and_y, fieldsOf_and_n, fieldsOf_packX]
  · exact nib_and_F op
  · exact BitVec.and_zero
  · exact nib_and_F _
  · exact nib_and_F _

theorem packX_mask_F000 (op : BitVec 4) (x : Reg) (nn : Byte) :
    packX op x nn &&& 0xF000 = packX op 0 0 := by
  apply word_ext <;>
    simp only [fieldsOf_and_op, fieldsOf_and_x, fieldsOf_and_y, fieldsOf_and_n, fieldsOf_packX]
  · exact nib_and_F op
  · exact BitVec.and_zero
  · exact BitVec.and_zero
  · exact BitVec.and_zero

theorem packN_mask_F000 (op : BitVec 4) (nnn : Addr) : packN op nnn &&& 0xF000 = packN op 0 := by
  apply word_ext <;>
    simp only [fieldsOf_and_op, fieldsOf_and_x, fieldsOf_and_y, fieldsOf_and_n, fieldsOf_packN]
  · exact nib_and_F op
  · exact BitVec.and_zero
  · exact BitVec.and_zero
  · exact BitVec.and_zero

end Sys2Proof
end

