-- ==== Sys2Proof/Laws/Memory.lean ====
section
/-! SUPPORT. The laws of memory: every operation keeps the canonical form, a read after a write, and
memories that read alike are equal. -/

namespace Sys2Proof.Machine

theorem Memory.wfFrom_mono {lo lo' : Nat} {m : Memory} (h : Memory.wfFrom lo m = true) (hl : lo' ≤ lo) :
    Memory.wfFrom lo' m = true := by
  cases m with
  | nil => rfl
  | cons c m =>
    simp only [Memory.wfFrom, Bool.and_eq_true, decide_eq_true_eq] at h ⊢
    exact ⟨⟨⟨by omega, h.1.1.2⟩, h.1.2⟩, h.2⟩

/-- Below its first possible address a canonical memory reads as unlisted. -/
theorem Memory.read_below {lo a : Nat} {m : Memory} (h : Memory.wfFrom lo m = true) (ha : a < lo) :
    m.read a = unlisted := by
  induction m generalizing lo with
  | nil => rfl
  | cons c m ih =>
    simp only [Memory.wfFrom, Bool.and_eq_true, decide_eq_true_eq] at h
    rw [Memory.read, if_neg (by omega)]
    exact ih h.2 (by omega)

/-- From the capacity on a canonical memory reads as unlisted. -/
theorem Memory.read_above {lo a : Nat} {m : Memory} (h : Memory.wfFrom lo m = true) (ha : memSize ≤ a) :
    m.read a = unlisted := by
  induction m generalizing lo with
  | nil => rfl
  | cons c m ih =>
    simp only [Memory.wfFrom, Bool.and_eq_true, decide_eq_true_eq] at h
    rw [Memory.read, if_neg (by omega)]
    exact ih h.2

theorem Memory.wfFrom_cons {a : Nat} {v : Byte} {m : Memory} {lo : Nat} (hm : Memory.wfFrom (a + 1) m = true)
    (hlo : lo ≤ a) (ha : a < memSize) : Memory.wfFrom lo (Memory.cons a v m) = true := by
  unfold Memory.cons
  split
  · exact Memory.wfFrom_mono hm (by omega)
  · simp_all [Memory.wfFrom]

theorem Memory.read_cons {a b : Nat} {v : Byte} {m : Memory} (hm : Memory.wfFrom (a + 1) m = true) :
    (Memory.cons a v m).read b = if b = a then v else m.read b := by
  unfold Memory.cons
  split
  · split
    · subst b; rw [Memory.read_below hm (by omega)]; simp_all
    · rfl
  · rfl

theorem Memory.write_wfFrom {lo a : Nat} {m : Memory} {v : Byte} (h : Memory.wfFrom lo m = true)
    (hlo : lo ≤ a) (ha : a < memSize) : Memory.wfFrom lo (m.write a v) = true := by
  induction m generalizing lo with
  | nil => exact Memory.wfFrom_cons rfl hlo ha
  | cons c m ih =>
    have hc := h
    simp only [Memory.wfFrom, Bool.and_eq_true, decide_eq_true_eq] at h
    simp only [Memory.write]
    split
    · refine Memory.wfFrom_cons ?_ hlo ha
      simp only [Memory.wfFrom, Bool.and_eq_true, decide_eq_true_eq]
      exact ⟨⟨⟨by omega, h.1.1.2⟩, h.1.2⟩, h.2⟩
    · split
      · subst a; exact Memory.wfFrom_cons h.2 hlo ha
      · simp only [Memory.wfFrom, Bool.and_eq_true, decide_eq_true_eq]
        exact ⟨h.1, ih h.2 (by omega)⟩

/-- A read after a write: the value written there, the old value elsewhere. -/
theorem Memory.read_write_from {lo a b : Nat} {m : Memory} {v : Byte} (h : Memory.wfFrom lo m = true) :
    (m.write a v).read b = if b = a then v else m.read b := by
  induction m generalizing lo with
  | nil => exact Memory.read_cons rfl
  | cons c m ih =>
    simp only [Memory.wfFrom, Bool.and_eq_true, decide_eq_true_eq] at h
    simp only [Memory.write]
    split
    · refine Memory.read_cons ?_
      simp only [Memory.wfFrom, Bool.and_eq_true, decide_eq_true_eq]
      exact ⟨⟨⟨by omega, h.1.1.2⟩, h.1.2⟩, h.2⟩
    · split
      · subst a
        rw [Memory.read_cons h.2, Memory.read]
        split <;> rfl
      · simp only [Memory.read, ih h.2]
        split
        · rw [if_neg (by omega)]
        · rfl

theorem Memory.write_wf {a : Nat} {m : Memory} {v : Byte} (h : m.wf = true) (ha : a < memSize) :
    (m.write a v).wf = true :=
  Memory.write_wfFrom h (Nat.zero_le a) ha

theorem Memory.read_write {a b : Nat} {m : Memory} {v : Byte} (h : m.wf = true) :
    (m.write a v).read b = if b = a then v else m.read b :=
  Memory.read_write_from h

theorem Memory.writeAll_wf {base : Nat} {m : Memory} {bytes : List Byte} (h : m.wf = true)
    (hb : base + bytes.length ≤ memSize) : (m.writeAll base bytes).wf = true := by
  induction bytes generalizing base m with
  | nil => exact h
  | cons b bytes ih =>
    simp only [List.length_cons] at hb
    exact ih (Memory.write_wf h (by omega)) (by omega)

/-- A read after writes at consecutive addresses. -/
theorem Memory.read_writeAll {base a : Nat} {m : Memory} {bytes : List Byte} (h : m.wf = true)
    (hb : base + bytes.length ≤ memSize) :
    (m.writeAll base bytes).read a =
      if base ≤ a ∧ a < base + bytes.length then bytes.getD (a - base) 0 else m.read a := by
  induction bytes generalizing base m with
  | nil => simp only [Memory.writeAll, List.length_nil]; rw [if_neg (by omega)]
  | cons b bytes ih =>
    simp only [List.length_cons] at hb ⊢
    rw [Memory.writeAll, ih (Memory.write_wf h (by omega)) (by omega), Memory.read_write h]
    by_cases hab : a = base
    · subst hab; simp
    · by_cases hin : base + 1 ≤ a ∧ a < base + 1 + bytes.length
      · rw [if_pos hin, if_pos (by omega), show a - base = a - (base + 1) + 1 by omega, List.getD_cons_succ]
      · rw [if_neg hin, if_neg hab, if_neg (by omega)]

/-- The canonical form is canonical: memories that read alike are equal. -/
theorem Memory.ext_from {lo : Nat} {m m' : Memory} (h : Memory.wfFrom lo m = true)
    (h' : Memory.wfFrom lo m' = true) (hr : ∀ a, m.read a = m'.read a) : m = m' := by
  induction m generalizing lo m' with
  | nil =>
    cases m' with
    | nil => rfl
    | cons c' m' =>
      simp only [Memory.wfFrom, Bool.and_eq_true, decide_eq_true_eq, bne_iff_ne] at h'
      exact absurd (by simpa [Memory.read] using (hr c'.1).symm) h'.1.2
  | cons c m ih =>
    obtain ⟨a, v⟩ := c
    have h0 := h
    simp only [Memory.wfFrom, Bool.and_eq_true, decide_eq_true_eq, bne_iff_ne] at h
    cases m' with
    | nil => exact absurd (by simpa [Memory.read] using hr a) h.1.2
    | cons c' m' =>
      obtain ⟨a', v'⟩ := c'
      have h0' := h'
      simp only [Memory.wfFrom, Bool.and_eq_true, decide_eq_true_eq, bne_iff_ne] at h'
      rcases Nat.lt_trichotomy a a' with hlt | heq | hgt
      · have hw : Memory.wfFrom a' ((a', v') :: m') = true := by simp_all [Memory.wfFrom]
        have := hr a
        rw [Memory.read_below hw hlt] at this
        exact absurd (by simpa [Memory.read] using this) h.1.2
      · subst heq
        have hv : v = v' := by simpa [Memory.read] using hr a
        subst hv
        rw [ih h.2 h'.2 fun b => ?_]
        by_cases hb : b = a
        · subst hb; rw [Memory.read_below h.2 (by omega), Memory.read_below h'.2 (by omega)]
        · simpa [Memory.read, hb] using hr b
      · have hw : Memory.wfFrom a ((a, v) :: m) = true := by simp_all [Memory.wfFrom]
        have := hr a'
        rw [Memory.read_below hw hgt] at this
        exact absurd (by simpa [Memory.read] using this.symm) h'.1.2

theorem Memory.ext_read {m m' : Memory} (h : m.wf = true) (h' : m'.wf = true)
    (hr : ∀ a, m.read a = m'.read a) : m = m' :=
  Memory.ext_from h h' hr

end Sys2Proof.Machine
end

