-- ==== Sys2Proof/Laws/State.lean ====
section
/-! SUPPORT. The small lemmas of the record updates: one per field per update, so that no proof
unfolds an update. -/

namespace Sys2Proof.Machine

variable (s : State) (k x : Reg) (b r f : Byte)

@[simp] theorem getV_setV_self : (s.setV k b).getV k = b := by simp [State.getV, State.setV]

theorem getV_setV : (s.setV x b).getV k = if k = x then b else s.getV k := by
  simp [State.getV, State.setV, Vector.getElem_set, Fin.ext_iff, eq_comm]

theorem getV_setV_ne (h : k ≠ x) : (s.setV x b).getV k = s.getV k := by simp [getV_setV, h]

@[simp] theorem setV_pc : (s.setV k b).pc = s.pc := rfl
@[simp] theorem setV_i : (s.setV k b).i = s.i := rfl
@[simp] theorem setV_stack : (s.setV k b).stack = s.stack := rfl
@[simp] theorem setV_mem : (s.setV k b).mem = s.mem := rfl
@[simp] theorem setV_fb : (s.setV k b).fb = s.fb := rfl
@[simp] theorem setV_fault : (s.setV k b).fault = s.fault := rfl
@[simp] theorem setV_rng : (s.setV k b).rng = s.rng := rfl
@[simp] theorem setV_keys : (s.setV k b).keys = s.keys := rfl
@[simp] theorem setV_vfDraws : (s.setV k b).vfDraws = s.vfDraws := rfl
@[simp] theorem setV_hooks : (s.setV k b).hooks = s.hooks := rfl
@[simp] theorem setV_cfg : (s.setV k b).cfg = s.cfg := rfl

theorem getV_setResultAndFlag :
    (s.setResultAndFlag x r f).getV k = if k = vF then f else if k = x then r else s.getV k := by
  simp [State.setResultAndFlag, getV_setV]

@[simp] theorem setResultAndFlag_pc : (s.setResultAndFlag x r f).pc = s.pc := rfl
@[simp] theorem setResultAndFlag_i : (s.setResultAndFlag x r f).i = s.i := rfl
@[simp] theorem setResultAndFlag_stack : (s.setResultAndFlag x r f).stack = s.stack := rfl
@[simp] theorem setResultAndFlag_mem : (s.setResultAndFlag x r f).mem = s.mem := rfl
@[simp] theorem setResultAndFlag_fb : (s.setResultAndFlag x r f).fb = s.fb := rfl
@[simp] theorem setResultAndFlag_fault : (s.setResultAndFlag x r f).fault = s.fault := rfl
@[simp] theorem setResultAndFlag_rng : (s.setResultAndFlag x r f).rng = s.rng := rfl
@[simp] theorem setResultAndFlag_keys : (s.setResultAndFlag x r f).keys = s.keys := rfl
@[simp] theorem setResultAndFlag_vfDraws : (s.setResultAndFlag x r f).vfDraws = s.vfDraws := rfl
@[simp] theorem setResultAndFlag_hooks : (s.setResultAndFlag x r f).hooks = s.hooks := rfl
@[simp] theorem setResultAndFlag_cfg : (s.setResultAndFlag x r f).cfg = s.cfg := rfl

/-- What `VF` holds after `setLogicVf` (R203). -/
theorem getV_setLogicVf : s.setLogicVf.getV k =
    if k = vF then
      match s.cfg.logicVf with
      | .anyByte => s.vfDraws.value Config.freeLogicVf
      | .zero => 0
      | .untouched => s.getV vF
    else s.getV k := by
  by_cases hk : k = vF
  · subst hk; cases hl : s.cfg.logicVf <;> simp [State.setLogicVf, hl, State.getV, State.setV]
  · cases hl : s.cfg.logicVf <;>
      simp [State.setLogicVf, hl, hk, State.getV, State.setV, Vector.getElem_set, eq_comm]
    all_goals simp only [Fin.ext_iff] at hk; simp_all [eq_comm]

@[simp] theorem setLogicVf_pc : s.setLogicVf.pc = s.pc := by unfold State.setLogicVf; split <;> rfl
@[simp] theorem setLogicVf_i : s.setLogicVf.i = s.i := by unfold State.setLogicVf; split <;> rfl
@[simp] theorem setLogicVf_stack : s.setLogicVf.stack = s.stack := by unfold State.setLogicVf; split <;> rfl
@[simp] theorem setLogicVf_mem : s.setLogicVf.mem = s.mem := by unfold State.setLogicVf; split <;> rfl
@[simp] theorem setLogicVf_fb : s.setLogicVf.fb = s.fb := by unfold State.setLogicVf; split <;> rfl
@[simp] theorem setLogicVf_fault : s.setLogicVf.fault = s.fault := by unfold State.setLogicVf; split <;> rfl
@[simp] theorem setLogicVf_rng : s.setLogicVf.rng = s.rng := by unfold State.setLogicVf; split <;> rfl
@[simp] theorem setLogicVf_keys : s.setLogicVf.keys = s.keys := by unfold State.setLogicVf; split <;> rfl
@[simp] theorem setLogicVf_hooks : s.setLogicVf.hooks = s.hooks := by unfold State.setLogicVf; split <;> rfl
@[simp] theorem setLogicVf_cfg : s.setLogicVf.cfg = s.cfg := by unfold State.setLogicVf; split <;> rfl

@[simp] theorem keyTaken_v : (keyTaken s).v = s.v := rfl
@[simp] theorem keyTaken_pc : (keyTaken s).pc = s.pc := rfl
@[simp] theorem keyTaken_i : (keyTaken s).i = s.i := rfl
@[simp] theorem keyTaken_stack : (keyTaken s).stack = s.stack := rfl
@[simp] theorem keyTaken_mem : (keyTaken s).mem = s.mem := rfl
@[simp] theorem keyTaken_fb : (keyTaken s).fb = s.fb := rfl
@[simp] theorem keyTaken_fault : (keyTaken s).fault = s.fault := rfl
@[simp] theorem keyTaken_rng : (keyTaken s).rng = s.rng := rfl
@[simp] theorem keyTaken_keys : (keyTaken s).keys = s.keys.rest := rfl
@[simp] theorem keyTaken_vfDraws : (keyTaken s).vfDraws = s.vfDraws := rfl
@[simp] theorem keyTaken_hooks : (keyTaken s).hooks = s.hooks := rfl
@[simp] theorem keyTaken_cfg : (keyTaken s).cfg = s.cfg := rfl

@[simp] theorem randomTaken_v : (randomTaken s).v = s.v := rfl
@[simp] theorem randomTaken_pc : (randomTaken s).pc = s.pc := rfl
@[simp] theorem randomTaken_i : (randomTaken s).i = s.i := rfl
@[simp] theorem randomTaken_stack : (randomTaken s).stack = s.stack := rfl
@[simp] theorem randomTaken_mem : (randomTaken s).mem = s.mem := rfl
@[simp] theorem randomTaken_fb : (randomTaken s).fb = s.fb := rfl
@[simp] theorem randomTaken_fault : (randomTaken s).fault = s.fault := rfl
@[simp] theorem randomTaken_rng : (randomTaken s).rng = s.rng.rest := rfl
@[simp] theorem randomTaken_keys : (randomTaken s).keys = s.keys := rfl
@[simp] theorem randomTaken_vfDraws : (randomTaken s).vfDraws = s.vfDraws := rfl
@[simp] theorem randomTaken_hooks : (randomTaken s).hooks = s.hooks := rfl
@[simp] theorem randomTaken_cfg : (randomTaken s).cfg = s.cfg := rfl

/-- An injected value is the next draw. -/
@[simp] theorem Draws.value_supplied {α : Type} (free : Nat → α) (a : α) (l : List α) (n : Nat) :
    (Draws.mk (a :: l) n).value free = a := rfl

@[simp] theorem Draws.rest_supplied {α : Type} (a : α) (l : List α) (n : Nat) :
    (Draws.mk (a :: l) n).rest = ⟨l, n + 1⟩ := rfl

@[simp] theorem Draws.rest_taken {α : Type} (d : Draws α) : d.rest.taken = d.taken + 1 := rfl

end Sys2Proof.Machine
end

