-- ==== Sys2Proof/Laws/Ops.lean ====
section
/-! SUPPORT. One lemma per shared operation that says all it can do: completing an instruction,
multi-byte accesses, the fetch, the key query. -/

namespace Sys2Proof.Machine

variable {s t u : State} {n : Nat}

/-! ## Completing an instruction -/

theorem narrow_eq (p : Params) (n : Nat) :
    narrow p n =
      if p.addrOverflow = .wrap12 ∨ n < memSize then some (BitVec.ofNat 12 n) else none := by
  unfold narrow
  split <;> simp_all

theorem narrow_of_fits (h : AddrFits s n) : narrow s.cfg n = some (BitVec.ofNat 12 n) := by
  rw [narrow_eq, if_pos h]

theorem narrow_of_not_fits (h : ¬AddrFits s n) : narrow s.cfg n = none := by
  rw [narrow_eq, if_neg h]

theorem goto_of_fits (h : AddrFits s n) : goto s t n = .next { t with pc := BitVec.ofNat 12 n } := by
  simp [goto, narrow_of_fits h]

theorem goto_of_not_fits (h : ¬AddrFits s n) : goto s t n = raise .addressCarry s := by
  simp [goto, narrow_of_not_fits h]

theorem pc_plus (a : Addr) (k : Nat) : BitVec.ofNat 12 (a.toNat + k) = a + BitVec.ofNat 12 k := by
  simp [BitVec.ofNat_add]

theorem advance_of_fits (h : CanAdvance s) : advance s t = .next { t with pc := s.pc + 2 } := by
  rw [advance, goto_of_fits h, pc_plus]; rfl

theorem advance_of_not_fits (h : ¬CanAdvance s) : advance s t = raise .addressCarry s :=
  goto_of_not_fits h

theorem skipIf_of_fits {c : Bool} (h : AddrFits s (s.pc.toNat + if c then 4 else 2)) :
    skipIf s t c = .next { t with pc := s.pc + if c then 4 else 2 } := by
  rw [skipIf, goto_of_fits h]; cases c <;> simp [pc_plus]

theorem advanceWithIndex_of_fits {m : Nat} (hi : AddrFits s m) (h : CanAdvance s) :
    advanceWithIndex s t m = .next { t with i := BitVec.ofNat 12 m, pc := s.pc + 2 } := by
  rw [advanceWithIndex, narrow_of_fits hi]
  exact advance_of_fits h

theorem advanceWithIndex_of_not_fits {m : Nat} (h : ¬(AddrFits s m ∧ CanAdvance s)) :
    advanceWithIndex s t m = raise .addressCarry s := by
  unfold advanceWithIndex
  by_cases hi : AddrFits s m
  · rw [narrow_of_fits hi]; exact advance_of_not_fits fun hc => h ⟨hi, hc⟩
  · rw [narrow_of_not_fits hi]

/-- All that completing an instruction can do: the pc is written over `t`, or nothing of `t` happens
and the carry is latched. -/
theorem goto_cases (h : goto s t n = .next u) :
    (AddrFits s n ∧ u = { t with pc := BitVec.ofNat 12 n }) ∨
      (s.cfg.addrOverflow = .faultOnCarry ∧ u = { s with fault := some .addressCarry }) := by
  by_cases hf : AddrFits s n
  · rw [goto_of_fits hf] at h; cases h; exact .inl ⟨hf, rfl⟩
  · rw [goto_of_not_fits hf] at h; cases h
    refine .inr ⟨?_, rfl⟩
    cases hc : s.cfg.addrOverflow with
    | wrap12 => exact absurd (.inl hc) hf
    | faultOnCarry => rfl

/-- All that completing an instruction with a new index can do. -/
theorem advanceWithIndex_cases {m : Nat} (h : advanceWithIndex s t m = .next u) :
    (AddrFits s m ∧ u = { t with i := BitVec.ofNat 12 m, pc := s.pc + 2 }) ∨
      (s.cfg.addrOverflow = .faultOnCarry ∧ u = { s with fault := some .addressCarry }) := by
  by_cases hf : AddrFits s m ∧ CanAdvance s
  · rw [advanceWithIndex_of_fits hf.1 hf.2] at h; cases h; exact .inl ⟨hf.1, rfl⟩
  · rw [advanceWithIndex_of_not_fits hf] at h; cases h
    refine .inr ⟨?_, rfl⟩
    cases hc : s.cfg.addrOverflow with
    | wrap12 => exact absurd ⟨.inl hc, .inl hc⟩ hf
    | faultOnCarry => rfl

theorem goto_next (s t : State) (n : Nat) : ∃ u, goto s t n = .next u := by
  unfold goto raise; split <;> exact ⟨_, rfl⟩

theorem advanceWithIndex_next (s t : State) (n : Nat) : ∃ u, advanceWithIndex s t n = .next u := by
  unfold advanceWithIndex
  split
  · exact ⟨_, rfl⟩
  · exact goto_next ..

/-! ## Multi-byte accesses -/

theorem memRead_ok {a : Nat} (h : a < memSize) : memRead s a = .ok (s.mem.read a) := if_pos h

theorem memRead_error {a : Nat} (h : memSize ≤ a) : memRead s a = .error (.outOfBounds a) :=
  if_neg (by omega)

/-- Reads in bounds give the bytes at the consecutive addresses. -/
theorem loadBytes_ok {base : Nat} (h : n = 0 ∨ base + n ≤ memSize) :
    loadBytes s base n = .ok (List.ofFn fun k : Fin n => s.mem.read (base + k.val)) := by
  induction n generalizing base with
  | zero => rfl
  | succ n ih =>
    have hb : base + (n + 1) ≤ memSize := by omega
    rw [loadBytes, memRead_ok (by omega)]
    simp only
    rw [ih (by omega)]
    simp [List.ofFn_succ, Nat.add_assoc, Nat.add_comm 1]

/-- Reads that leave the memory fail at the lowest address out of bounds (R237, R334). -/
theorem loadBytes_error {base : Nat} (hn : n ≠ 0) (h : memSize < base + n) :
    loadBytes s base n = .error (.outOfBounds (max base memSize)) := by
  induction n generalizing base with
  | zero => exact absurd rfl hn
  | succ n ih =>
    rw [loadBytes]
    by_cases hb : base < memSize
    · have hn' : n ≠ 0 := by rintro rfl; omega
      rw [memRead_ok hb]
      simp only
      rw [ih hn' (by omega)]
      simp only [Except.error.injEq, Fault.outOfBounds.injEq]
      omega
    · rw [memRead_error (by omega)]
      simp only [Except.error.injEq, Fault.outOfBounds.injEq]
      omega

/-- Writes in bounds write the bytes at the consecutive addresses and nothing else. -/
theorem storeBytes_ok {base : Nat} {bytes : List Byte} (h : bytes = [] ∨ base + bytes.length ≤ memSize) :
    storeBytes s base bytes = .ok { s with mem := s.mem.writeAll base bytes } := by
  induction bytes generalizing base s with
  | nil => rfl
  | cons b bytes ih =>
    have hb : base + (bytes.length + 1) ≤ memSize := by simpa using h
    rw [storeBytes, memWrite, if_pos (by omega)]
    simp only
    rw [ih (.inr (by omega))]
    rfl

/-- Writes that leave the memory fail at the lowest address out of bounds (R237, R334). -/
theorem storeBytes_error {base : Nat} {bytes : List Byte} (hn : bytes ≠ [])
    (h : memSize < base + bytes.length) :
    storeBytes s base bytes = .error (.outOfBounds (max base memSize)) := by
  induction bytes generalizing base s with
  | nil => exact absurd rfl hn
  | cons b bytes ih =>
    simp only [List.length_cons] at h
    rw [storeBytes, memWrite]
    by_cases hb : base < memSize
    · have hn' : bytes ≠ [] := by rintro rfl; simp at h; omega
      rw [if_pos hb]
      simp only
      rw [ih hn' (by omega)]
      simp only [Except.error.injEq, Fault.outOfBounds.injEq]
      omega
    · rw [if_neg hb]
      simp only [Except.error.injEq, Fault.outOfBounds.injEq]
      omega

/-- From a base that `i` or `pc` can hold, the address out of bounds is 4096 (R334). -/
theorem max_addr (a : Addr) : max a.toNat memSize = memSize := by
  have := a.isLt; unfold memSize; omega

/-- All that a multi-byte write can do. -/
theorem storeBytes_cases (s : State) (base : Nat) (bytes : List Byte) :
    (base + bytes.length ≤ memSize ∧
        storeBytes s base bytes = .ok { s with mem := s.mem.writeAll base bytes }) ∨
      (bytes = [] ∧ storeBytes s base bytes = .ok s) ∨
      (memSize < base + bytes.length ∧
        storeBytes s base bytes = .error (.outOfBounds (max base memSize))) := by
  by_cases hn : bytes = []
  · subst hn; exact .inr (.inl ⟨rfl, rfl⟩)
  · by_cases hb : base + bytes.length ≤ memSize
    · exact .inl ⟨hb, storeBytes_ok (.inr hb)⟩
    · exact .inr (.inr ⟨by omega, storeBytes_error hn (by omega)⟩)

/-- All that a multi-byte read can do. -/
theorem loadBytes_cases (s : State) (base n : Nat) :
    ((n = 0 ∨ base + n ≤ memSize) ∧
        loadBytes s base n = .ok (List.ofFn fun k : Fin n => s.mem.read (base + k.val))) ∨
      (n ≠ 0 ∧ memSize < base + n ∧ loadBytes s base n = .error (.outOfBounds (max base memSize))) := by
  by_cases h : n = 0 ∨ base + n ≤ memSize
  · exact .inl ⟨h, loadBytes_ok h⟩
  · exact .inr ⟨by omega, by omega, loadBytes_error (by omega) (by omega)⟩

/-! ## Operands -/

@[simp] theorem lowRegisters_length (s : State) (x : Reg) : (lowRegisters s x).length = x.val + 1 := by
  simp only [lowRegisters, List.length_take, Vector.length_toList]; omega

theorem lowRegisters_getD (s : State) (x k : Reg) (h : k ≤ x) :
    (lowRegisters s x).getD k.val 0 = s.getV k := by
  have hk : k.val < x.val + 1 := Nat.lt_succ_of_le h
  simp [lowRegisters, List.getD_eq_getElem?_getD, hk, State.getV]

@[simp] theorem decimalDigits_length (b : Byte) : (decimalDigits b).length = 3 := rfl

theorem getElem_loadedRegisters (v : Vector Byte 16) (bytes : List Byte) (k : Reg) :
    (loadedRegisters v bytes)[k] = bytes.getD k.val v[k] := by
  simp [loadedRegisters]

/-- All that the choice of the key number can do (R177). -/
theorem keyNumber_cases (p : Params) (k : Byte) :
    (k.toNat < numKeys ∧ keyNumber p k = .ok k) ∨
      (numKeys ≤ k.toNat ∧ p.keyOor = .fault ∧ keyNumber p k = .error (.keyOutOfRange k)) ∨
      (numKeys ≤ k.toNat ∧ p.keyOor = .draw ∧ keyNumber p k = .ok k) ∨
      (numKeys ≤ k.toNat ∧ p.keyOor = .mask4 ∧ keyNumber p k = .ok (k &&& 0x0F)) := by
  unfold keyNumber
  by_cases h : k.toNat < numKeys
  · simp [h]
  · cases hp : p.keyOor <;> simp [h] <;> omega

/-! ## Flags -/

/-- Each flag computation as a condition (R202, R208 to R212). -/
theorem carryFlag_eq (a b : Byte) : carryFlag a b = if 255 < a.toNat + b.toNat then 1 else 0 := by
  unfold carryFlag flagByte; by_cases h : 255 < a.toNat + b.toNat <;> simp [h]

theorem notBorrowFlag_eq (a b : Byte) : notBorrowFlag a b = if b.toNat ≤ a.toNat then 1 else 0 := by
  unfold notBorrowFlag flagByte; by_cases h : b.toNat ≤ a.toNat <;> simp [h]

theorem shiftedOutLow_eq (a : Byte) : shiftedOutLow a = if a.getLsbD 0 then 1 else 0 := by
  unfold shiftedOutLow; revert a; decide

theorem shiftedOutHigh_eq (a : Byte) : shiftedOutHigh a = if a.getLsbD 7 then 1 else 0 := by
  unfold shiftedOutHigh; revert a; decide

/-! ## Fetch -/

theorem fetch_ok (h : s.pc.toNat + 1 < memSize) :
    fetch s = .ok [s.mem.read s.pc.toNat, s.mem.read (s.pc.toNat + 1)] := by
  simp [fetch, loadBytes, memRead, h, show s.pc.toNat < memSize by omega]

theorem fetch_error (h : s.pc = 0xFFF) : fetch s = .error (.outOfBounds memSize) := by
  rw [fetch, h, loadBytes_error (by omega) (by decide)]; rfl

end Sys2Proof.Machine
end

