-- ==== Sys2Proof/Laws/Exec.lean ====
section
/-! SUPPORT. Every instruction in closed form: the state it leaves when it completes, the fault it
takes when it does not, and that `exec` does nothing else. -/

namespace Sys2Proof.Machine

variable {s t u : State} {i : Instr}

/-- The bytes at `base`, `base + 1`, ... (R63). -/
def bytesAt (s : State) (base n : Nat) : List Byte := List.ofFn fun k : Fin n => s.mem.read (base + k.val)

/-- The key number asked for, where the query does not fault (R177). -/
def askedKey (s : State) (x : Reg) : Byte :=
  if (s.getV x).toNat < numKeys ∨ s.cfg.keyOor = .draw then s.getV x else s.getV x &&& 0x0F

/-- The state a completed instruction leaves, in closed form. -/
def completed (i : Instr) (s : State) : State :=
  let on (t : State) : State := { t with pc := s.pc + 2 }
  let skip (t : State) (c : Bool) : State := { t with pc := s.pc + if c then 4 else 2 }
  match i with
  | .cls => on { s with fb := clearDisplay }
  | .ret => { s with pc := s.stack.headD 0, stack := s.stack.tail }
  | .jp nnn => { s with pc := nnn }
  | .call nnn => { s with pc := nnn, stack := (s.pc + 2) :: s.stack }
  | .seImm x nn => skip s (s.getV x == nn)
  | .sneImm x nn => skip s (s.getV x != nn)
  | .seReg x y => skip s (s.getV x == s.getV y)
  | .sneReg x y => skip s (s.getV x != s.getV y)
  | .skp x => skip (keyTaken s) (keyPressed s (askedKey s x))
  | .sknp x => skip (keyTaken s) (!keyPressed s (askedKey s x))
  | .ldImm x nn => on (s.setV x nn)
  | .addImm x nn => on (s.setV x (s.getV x + nn))
  | .rnd x nn => on ((randomTaken s).setV x (randomByte s &&& nn))
  | .ldReg x y => on (s.setV x (s.getV y)).setLogicVf
  | .or x y => on (s.setV x (s.getV x ||| s.getV y)).setLogicVf
  | .and x y => on (s.setV x (s.getV x &&& s.getV y)).setLogicVf
  | .xor x y => on (s.setV x (s.getV x ^^^ s.getV y)).setLogicVf
  | .addReg x y => on (s.setResultAndFlag x (s.getV x + s.getV y) (carryFlag (s.getV x) (s.getV y)))
  | .sub x y => on (s.setResultAndFlag x (s.getV x - s.getV y) (notBorrowFlag (s.getV x) (s.getV y)))
  | .shr x _ => on (s.setResultAndFlag x (s.getV x >>> 1) (shiftedOutLow (s.getV x)))
  | .subn x y => on (s.setResultAndFlag x (s.getV y - s.getV x) (notBorrowFlag (s.getV y) (s.getV x)))
  | .shl x _ => on (s.setResultAndFlag x (s.getV x <<< 1) (shiftedOutHigh (s.getV x)))
  | .ldI nnn => on { s with i := nnn }
  | .jpV0 nnn => { s with pc := nnn + (s.getV 0).setWidth 12 }
  | .addI x => on { s with i := s.i + (s.getV x).setWidth 12 }
  | .ldF x => on { s with i := BitVec.ofNat 12 (glyphAddress (s.getV x)) }
  | .ldB x => on { s with mem := s.mem.writeAll (indexBase s) (decimalDigits (s.getV x)) }
  | .ldMemVx x =>
    on { s with mem := s.mem.writeAll (indexBase s) (lowRegisters s x), i := s.i + BitVec.ofNat 12 (x.val + 1) }
  | .ldVxMem x =>
    on { s with v := loadedRegisters s.v (bytesAt s (indexBase s) (x.val + 1)), i := s.i + BitVec.ofNat 12 (x.val + 1) }
  | .drw x y n =>
    let d := blit (bytesAt s (indexBase s) n.val) (s.getV x) (s.getV y) s.fb
    on ({ s with fb := d.fb }.setV vF (flagByte d.collision))
  | .ldVxDt x => on { s with hooks := s.hooks ++ [.readDelay x] }
  | .ldVxK x => on { s with hooks := s.hooks ++ [.waitKey x] }
  | .ldDtVx x => on { s with hooks := s.hooks ++ [.writeDelay x (s.getV x)] }
  | .ldStVx x => on { s with hooks := s.hooks ++ [.writeSound x (s.getV x)] }

/-- The fault of a write of `n` to `pc` or `i` (R26, R35). -/
def carries (s : State) (n : Nat) : Option Fault := if AddrFits s n then none else some .addressCarry

/-- The next state: `t`, or the fault taken from `s`. -/
def settle (s t : State) : Option Fault → State
  | none => t
  | some f => { s with fault := some f }

@[simp] theorem settle_none : settle s t none = t := rfl
@[simp] theorem settle_some (f : Fault) : settle s t (some f) = { s with fault := some f } := rfl

theorem carries_fits {n : Nat} (h : AddrFits s n) : carries s n = none := if_pos h
theorem carries_not_fits {n : Nat} (h : ¬AddrFits s n) : carries s n = some .addressCarry := if_neg h

/-- The fault condition and the fault of an instruction, with the checks in the order of R337. -/
def faultOf (i : Instr) (s : State) : Option Fault :=
  let skips (c : Bool) : Option Fault := carries s (s.pc.toNat + if c then 4 else 2)
  let outOfBounds (n : Nat) : Option Fault :=
    if n ≠ 0 ∧ memSize < s.i.toNat + n then some (.outOfBounds memSize) else none
  match i with
  | .jp _ => none
  | .ret => if s.stack = [] then some .missingReturnAddress else none
  | .call _ => if stackFull s then some .stackOverflow else carries s (s.pc.toNat + 2)
  | .jpV0 nnn => carries s (nnn.toNat + (s.getV 0).toNat)
  | .seImm x nn => skips (s.getV x == nn)
  | .sneImm x nn => skips (s.getV x != nn)
  | .seReg x y => skips (s.getV x == s.getV y)
  | .sneReg x y => skips (s.getV x != s.getV y)
  | .skp x =>
    if numKeys ≤ (s.getV x).toNat ∧ s.cfg.keyOor = .fault then some (.keyOutOfRange (s.getV x))
    else skips (keyPressed s (askedKey s x))
  | .sknp x =>
    if numKeys ≤ (s.getV x).toNat ∧ s.cfg.keyOor = .fault then some (.keyOutOfRange (s.getV x))
    else skips (!keyPressed s (askedKey s x))
  | .addI x => (carries s (s.i.toNat + (s.getV x).toNat)).or (carries s (s.pc.toNat + 2))
  | .ldB _ => (outOfBounds 3).or (carries s (s.pc.toNat + 2))
  | .drw _ _ n => (outOfBounds n.val).or (carries s (s.pc.toNat + 2))
  | .ldMemVx x | .ldVxMem x =>
    ((outOfBounds (x.val + 1)).or (carries s (s.i.toNat + (x.val + 1)))).or (carries s (s.pc.toNat + 2))
  | _ => carries s (s.pc.toNat + 2)

theorem goto_eq (s t : State) (n : Nat) :
    goto s t n = .next (settle s { t with pc := BitVec.ofNat 12 n } (carries s n)) := by
  by_cases h : AddrFits s n
  · rw [goto_of_fits h, carries_fits h]; rfl
  · rw [goto_of_not_fits h, carries_not_fits h]; rfl

theorem advance_eq (s t : State) :
    advance s t = .next (settle s { t with pc := s.pc + 2 } (carries s (s.pc.toNat + 2))) := by
  rw [advance, goto_eq, pc_plus]; rfl

theorem skipIf_eq (s t : State) (c : Bool) :
    skipIf s t c = .next (settle s { t with pc := s.pc + if c then 4 else 2 }
      (carries s (s.pc.toNat + if c then 4 else 2))) := by
  rw [skipIf, goto_eq, pc_plus]; cases c <;> rfl

theorem advanceWithIndex_eq (s t : State) (m : Nat) :
    advanceWithIndex s t m = .next (settle s { t with i := BitVec.ofNat 12 m, pc := s.pc + 2 }
      ((carries s m).or (carries s (s.pc.toNat + 2)))) := by
  by_cases h : AddrFits s m
  · by_cases h2 : CanAdvance s
    · rw [advanceWithIndex_of_fits h h2, carries_fits h, carries_fits h2]; rfl
    · rw [advanceWithIndex_of_not_fits fun hc => h2 hc.2, carries_fits h, carries_not_fits h2]; rfl
  · rw [advanceWithIndex_of_not_fits fun hc => h hc.1, carries_not_fits h]; rfl

theorem keySkip_eq (w : Bool) (x : Reg) (s : State) :
    keySkip w x s =
      .next (settle s { keyTaken s with pc := s.pc + if keyPressed s (askedKey s x) == w then 4 else 2 }
        (if numKeys ≤ (s.getV x).toNat ∧ s.cfg.keyOor = .fault then some (.keyOutOfRange (s.getV x))
         else carries s (s.pc.toNat + if keyPressed s (askedKey s x) == w then 4 else 2))) := by
  have go (k : Byte) (hk : keyNumber s.cfg (s.getV x) = .ok k) (ha : askedKey s x = k)
      (hn : ¬(numKeys ≤ (s.getV x).toNat ∧ s.cfg.keyOor = .fault)) :
      keySkip w x s = .next (settle s { keyTaken s with pc := s.pc + if keyPressed s k == w then 4 else 2 }
        (carries s (s.pc.toNat + if keyPressed s k == w then 4 else 2))) := by
    rw [keySkip, hk]; exact skipIf_eq ..
  obtain ⟨h1, h⟩ | ⟨h1, h2, h⟩ | ⟨h1, h2, h⟩ | ⟨h1, h2, h⟩ := keyNumber_cases s.cfg (s.getV x)
  · have ha : askedKey s x = s.getV x := if_pos (.inl h1)
    rw [go _ h ha (by omega), ha, if_neg (show ¬(numKeys ≤ _ ∧ _) by omega)]
  · rw [keySkip, h, if_pos (show numKeys ≤ (s.getV x).toNat ∧ s.cfg.keyOor = .fault from ⟨h1, h2⟩)]; rfl
  · have ha : askedKey s x = s.getV x := if_pos (.inr h2)
    rw [go _ h ha (by simp [h2]), ha, if_neg (show ¬(numKeys ≤ _ ∧ s.cfg.keyOor = .fault) by simp [h2])]
  · have ha : askedKey s x = s.getV x &&& 0x0F := if_neg (by simp [h2]; omega)
    rw [go _ h ha (by simp [h2]), ha, if_neg (show ¬(numKeys ≤ _ ∧ s.cfg.keyOor = .fault) by simp [h2])]

theorem addr_plus (a : Addr) (b : Byte) : BitVec.ofNat 12 (a.toNat + b.toNat) = a + b.setWidth 12 := by
  rw [pc_plus, BitVec.ofNat_toNat]

/-- Every instruction in closed form: it completes, or takes the fault of its first failing check. -/
theorem exec_eq (i : Instr) (s : State) : exec i s = .next (settle s (completed i s) (faultOf i s)) := by
  cases i with
  | ret =>
    simp only [exec, execRet, faultOf, completed]
    cases h : s.stack <;> simp [raise]
  | jp nnn => rfl
  | call nnn =>
    simp only [exec, execCall, faultOf, completed]
    split
    · rfl
    · by_cases h : AddrFits s (s.pc.toNat + 2)
      · rw [narrow_of_fits h, carries_fits h, pc_plus]; rfl
      · rw [narrow_of_not_fits h, carries_not_fits h]; rfl
  | jpV0 nnn => simp only [exec, execJpV0, faultOf, completed, goto_eq, v0Indexed, addr_plus]
  | skp x => exact (keySkip_eq ..).trans (by simp only [beq_true]; rfl)
  | sknp x => exact (keySkip_eq ..).trans (by simp only [beq_false]; rfl)
  | addI x => simp only [exec, execAddI, faultOf, completed, advanceWithIndex_eq, indexPlus, addr_plus]
  | ldF x =>
    have h : AddrFits s (glyphAddress (s.getV x)) := .inr (by unfold glyphAddress glyphStride memSize; omega)
    simp only [exec, execLdF, faultOf, completed, advanceWithIndex_eq, carries_fits h, Option.none_or]
  | ldB x =>
    simp only [exec, execLdB, faultOf, completed, indexBase]
    obtain ⟨hb, h⟩ | ⟨h, -⟩ | ⟨hb, h⟩ := storeBytes_cases s s.i.toNat (decimalDigits (s.getV x))
    · rw [h, if_neg (by simp at hb; omega)]; exact advance_eq ..
    · exact absurd (congrArg List.length h) (by simp)
    · rw [h, max_addr, if_pos ⟨by decide, by simpa using hb⟩]; rfl
  | ldMemVx x =>
    simp only [exec, execLdMemVx, faultOf, completed, indexBase]
    obtain ⟨hb, h⟩ | ⟨h, -⟩ | ⟨hb, h⟩ := storeBytes_cases s s.i.toNat (lowRegisters s x)
    · rw [h, if_neg (by simp at hb; omega), ← pc_plus]; exact advanceWithIndex_eq ..
    · exact absurd (congrArg List.length h) (by simp)
    · rw [h, max_addr, if_pos ⟨by omega, by simpa using hb⟩]; rfl
  | ldVxMem x =>
    simp only [exec, execLdVxMem, faultOf, completed, indexBase]
    obtain ⟨hb, h⟩ | ⟨-, hb, h⟩ := loadBytes_cases s s.i.toNat (x.val + 1)
    · rw [h, if_neg (by omega), ← pc_plus]; exact advanceWithIndex_eq ..
    · rw [h, max_addr, if_pos ⟨by omega, hb⟩]; rfl
  | drw x y n =>
    simp only [exec, execDrw, faultOf, completed, indexBase]
    obtain ⟨hb, h⟩ | ⟨hn, hb, h⟩ := loadBytes_cases s s.i.toNat n.val
    · rw [h, if_neg (by omega)]; exact advance_eq ..
    · rw [h, max_addr, if_pos ⟨hn, hb⟩]; rfl
  | seImm x nn => exact skipIf_eq ..
  | sneImm x nn => exact skipIf_eq ..
  | seReg x y => exact skipIf_eq ..
  | sneReg x y => exact skipIf_eq ..
  | ldReg x y => exact (advance_eq ..)
  | or x y => exact (advance_eq ..)
  | and x y => exact (advance_eq ..)
  | xor x y => exact (advance_eq ..)
  | _ => exact advance_eq ..

/-- All that an instruction can do. -/
theorem exec_cases (h : exec i s = .next u) :
    (faultOf i s = none ∧ u = completed i s) ∨
      ∃ f, faultOf i s = some f ∧ u = { s with fault := some f } := by
  rw [exec_eq] at h; cases h
  cases hf : faultOf i s with
  | none => exact .inl ⟨rfl, rfl⟩
  | some f => exact .inr ⟨f, rfl, rfl⟩

/-- No fault, no change of plan: an instruction without a fault condition completes. -/
theorem exec_of_no_fault (h : faultOf i s = none) : exec i s = .next (completed i s) := by
  rw [exec_eq, h]; rfl

/-- A completed instruction touches neither the latch nor the parameters. -/
theorem completed_fault_cfg (i : Instr) (s : State) :
    (completed i s).fault = s.fault ∧ (completed i s).cfg = s.cfg := by
  cases i <;> simp [completed]

/-- The states an instruction can lead to: completed, with the latch and the parameters as they
were, or faulted, with nothing but the latch changed (R130, R340). -/
def CompletedOrFaulted (s u : State) : Prop :=
  (u.fault = s.fault ∧ u.cfg = s.cfg) ∨ ∃ f, u = { s with fault := some f }

theorem raise_shape (f : Fault) (s : State) : ∃ u, raise f s = .next u ∧ CompletedOrFaulted s u :=
  ⟨_, rfl, .inr ⟨f, rfl⟩⟩

/-- Every meaning answers a next state of one of the two shapes. -/
theorem exec_shape (i : Instr) (s : State) : ∃ u, exec i s = .next u ∧ CompletedOrFaulted s u := by
  rw [exec_eq]
  refine ⟨_, rfl, ?_⟩
  cases faultOf i s with
  | none => exact .inl (completed_fault_cfg i s)
  | some f => exact .inr ⟨f, rfl⟩

end Sys2Proof.Machine
end

