-- ==== Sys2Proof/Laws/PerInstr.lean ====
section
/-! SUPPORT. Family `MatchesRow`, made per instruction: the word of every instruction matches the row
of the opcode table that bears its mnemonic (R94, R100). -/

namespace Sys2Proof.Laws.MatchesRow

/-- The encoding of `i` lies in the row of the opcode table with the mnemonic of `i` (R94, R100). -/
def Statement (i : Instr) : Prop :=
  ∃ r ∈ opcodeTable, r.mnemonic = i.mnemonic ∧ r.matches (encode i) = true

/-- A row whose match test is an equation of words. -/
theorem of_row {i : Instr} (r : Row) (hr : r ∈ opcodeTable) (hm : r.mnemonic = i.mnemonic)
    (hw : encode i &&& r.mask = r.fixed) : Statement i :=
  ⟨r, hr, hm, by simp [Row.matches, hw]⟩

theorem cls : Statement .cls :=
  of_row ⟨"CLS", 0x00E0, 0xFFFF⟩ (by decide) rfl (by decide)

theorem ret : Statement .ret :=
  of_row ⟨"RET", 0x00EE, 0xFFFF⟩ (by decide) rfl (by decide)

theorem jp (nnn : Addr) : Statement (.jp nnn) :=
  of_row ⟨"JP", 0x1000, 0xF000⟩ (by decide) rfl (packN_mask_F000 ..)

theorem call (nnn : Addr) : Statement (.call nnn) :=
  of_row ⟨"CALL", 0x2000, 0xF000⟩ (by decide) rfl (packN_mask_F000 ..)

theorem seImm (x : Reg) (nn : Byte) : Statement (.seImm x nn) :=
  of_row ⟨"SE_VX_NN", 0x3000, 0xF000⟩ (by decide) rfl (packX_mask_F000 ..)

theorem sneImm (x : Reg) (nn : Byte) : Statement (.sneImm x nn) :=
  of_row ⟨"SNE_VX_NN", 0x4000, 0xF000⟩ (by decide) rfl (packX_mask_F000 ..)

theorem seReg (x y : Reg) : Statement (.seReg x y) :=
  of_row ⟨"SE_VX_VY", 0x5000, 0xF00F⟩ (by decide) rfl (packXY_mask_F00F ..)

theorem ldImm (x : Reg) (nn : Byte) : Statement (.ldImm x nn) :=
  of_row ⟨"LD_VX_NN", 0x6000, 0xF000⟩ (by decide) rfl (packX_mask_F000 ..)

theorem addImm (x : Reg) (nn : Byte) : Statement (.addImm x nn) :=
  of_row ⟨"ADD_VX_NN", 0x7000, 0xF000⟩ (by decide) rfl (packX_mask_F000 ..)

theorem ldReg (x y : Reg) : Statement (.ldReg x y) :=
  of_row ⟨"LD_VX_VY", 0x8000, 0xF00F⟩ (by decide) rfl (packXY_mask_F00F ..)

theorem or (x y : Reg) : Statement (.or x y) :=
  of_row ⟨"OR", 0x8001, 0xF00F⟩ (by decide) rfl (packXY_mask_F00F ..)

theorem and (x y : Reg) : Statement (.and x y) :=
  of_row ⟨"AND", 0x8002, 0xF00F⟩ (by decide) rfl (packXY_mask_F00F ..)

theorem xor (x y : Reg) : Statement (.xor x y) :=
  of_row ⟨"XOR", 0x8003, 0xF00F⟩ (by decide) rfl (packXY_mask_F00F ..)

theorem addReg (x y : Reg) : Statement (.addReg x y) :=
  of_row ⟨"ADD_VX_VY", 0x8004, 0xF00F⟩ (by decide) rfl (packXY_mask_F00F ..)

theorem sub (x y : Reg) : Statement (.sub x y) :=
  of_row ⟨"SUB", 0x8005, 0xF00F⟩ (by decide) rfl (packXY_mask_F00F ..)

theorem shr (x y : Reg) : Statement (.shr x y) :=
  of_row ⟨"SHR", 0x8006, 0xF00F⟩ (by decide) rfl (packXY_mask_F00F ..)

theorem subn (x y : Reg) : Statement (.subn x y) :=
  of_row ⟨"SUBN", 0x8007, 0xF00F⟩ (by decide) rfl (packXY_mask_F00F ..)

theorem shl (x y : Reg) : Statement (.shl x y) :=
  of_row ⟨"SHL", 0x800E, 0xF00F⟩ (by decide) rfl (packXY_mask_F00F ..)

theorem sneReg (x y : Reg) : Statement (.sneReg x y) :=
  of_row ⟨"SNE_VX_VY", 0x9000, 0xF00F⟩ (by decide) rfl (packXY_mask_F00F ..)

theorem ldI (nnn : Addr) : Statement (.ldI nnn) :=
  of_row ⟨"LD_I_NNN", 0xA000, 0xF000⟩ (by decide) rfl (packN_mask_F000 ..)

theorem jpV0 (nnn : Addr) : Statement (.jpV0 nnn) :=
  of_row ⟨"JP_V0_NNN", 0xB000, 0xF000⟩ (by decide) rfl (packN_mask_F000 ..)

theorem rnd (x : Reg) (nn : Byte) : Statement (.rnd x nn) :=
  of_row ⟨"RND", 0xC000, 0xF000⟩ (by decide) rfl (packX_mask_F000 ..)

theorem drw (x y : Reg) (n : Fin 16) : Statement (.drw x y n) :=
  of_row ⟨"DRW", 0xD000, 0xF000⟩ (by decide) rfl (packXY_mask_F000 ..)

theorem skp (x : Reg) : Statement (.skp x) :=
  of_row ⟨"SKP", 0xE09E, 0xF0FF⟩ (by decide) rfl (packX_mask_F0FF ..)

theorem sknp (x : Reg) : Statement (.sknp x) :=
  of_row ⟨"SKNP", 0xE0A1, 0xF0FF⟩ (by decide) rfl (packX_mask_F0FF ..)

theorem ldVxDt (x : Reg) : Statement (.ldVxDt x) :=
  of_row ⟨"LD_VX_DT", 0xF007, 0xF0FF⟩ (by decide) rfl (packX_mask_F0FF ..)

theorem ldVxK (x : Reg) : Statement (.ldVxK x) :=
  of_row ⟨"LD_VX_K", 0xF00A, 0xF0FF⟩ (by decide) rfl (packX_mask_F0FF ..)

theorem ldDtVx (x : Reg) : Statement (.ldDtVx x) :=
  of_row ⟨"LD_DT_VX", 0xF015, 0xF0FF⟩ (by decide) rfl (packX_mask_F0FF ..)

theorem ldStVx (x : Reg) : Statement (.ldStVx x) :=
  of_row ⟨"LD_ST_VX", 0xF018, 0xF0FF⟩ (by decide) rfl (packX_mask_F0FF ..)

theorem addI (x : Reg) : Statement (.addI x) :=
  of_row ⟨"ADD_I_VX", 0xF01E, 0xF0FF⟩ (by decide) rfl (packX_mask_F0FF ..)

theorem ldF (x : Reg) : Statement (.ldF x) :=
  of_row ⟨"LD_F_VX", 0xF029, 0xF0FF⟩ (by decide) rfl (packX_mask_F0FF ..)

theorem ldB (x : Reg) : Statement (.ldB x) :=
  of_row ⟨"LD_B_VX", 0xF033, 0xF0FF⟩ (by decide) rfl (packX_mask_F0FF ..)

theorem ldMemVx (x : Reg) : Statement (.ldMemVx x) :=
  of_row ⟨"LD_MEM_VX", 0xF055, 0xF0FF⟩ (by decide) rfl (packX_mask_F0FF ..)

theorem ldVxMem (x : Reg) : Statement (.ldVxMem x) :=
  of_row ⟨"LD_VX_MEM", 0xF065, 0xF0FF⟩ (by decide) rfl (packX_mask_F0FF ..)

end Sys2Proof.Laws.MatchesRow
end

