-- ==== Sys2Proof/Laws/Step.lean ====
section
/-! SUPPORT. What placing an instruction does: the next step runs it, and memory keeps its form. -/

namespace Sys2Proof.Machine

variable (s : State) (nbits w : Nat)

@[simp] theorem withFetchWord_v : (s.withFetchWord nbits w).v = s.v := rfl
@[simp] theorem withFetchWord_i : (s.withFetchWord nbits w).i = s.i := rfl
@[simp] theorem withFetchWord_stack : (s.withFetchWord nbits w).stack = s.stack := rfl
@[simp] theorem withFetchWord_fb : (s.withFetchWord nbits w).fb = s.fb := rfl
@[simp] theorem withFetchWord_fault : (s.withFetchWord nbits w).fault = none := rfl
@[simp] theorem withFetchWord_cfg : (s.withFetchWord nbits w).cfg = s.cfg := rfl

/-- The address where an instruction is placed leaves room for its second byte. -/
theorem withFetchWord_pc_lt : (s.withFetchWord nbits w).pc.toNat + 1 < memSize := by
  simp only [State.withFetchWord]
  split
  · decide
  · rename_i h
    have h1 := s.pc.isLt
    have h2 : s.pc.toNat ≠ 0xFFF := fun h' => h (BitVec.eq_of_toNat_eq h')
    unfold memSize
    omega

theorem withFetchWord_mem :
    (s.withFetchWord nbits w).mem =
      s.mem.writeAll (s.withFetchWord nbits w).pc.toNat (wordBytes (tableWord nbits w)) := rfl

variable {s}

theorem withFetchWord_mem_wf (hm : s.mem.wf = true) : (s.withFetchWord nbits w).mem.wf = true := by
  rw [withFetchWord_mem]
  exact Memory.writeAll_wf hm (withFetchWord_pc_lt s nbits w)

/-- The fetch gives the two bytes of the placed word. -/
theorem fetch_withFetchWord (hm : s.mem.wf = true) :
    fetch (s.withFetchWord nbits w) = .ok (wordBytes (tableWord nbits w)) := by
  have hlt := withFetchWord_pc_lt s nbits w
  rw [fetch_ok hlt, withFetchWord_mem]
  generalize (s.withFetchWord nbits w).pc.toNat = a at hlt ⊢
  have hb : a + (wordBytes (tableWord nbits w)).length ≤ memSize := hlt
  rw [Memory.read_writeAll hm hb, Memory.read_writeAll hm hb]
  simp [wordBytes]

/-- A placed instruction is the one the next step runs. -/
theorem step_withFetchWord {i : Instr} (hm : s.mem.wf = true) (h : decodeTableWord nbits w = some i) :
    step (s.withFetchWord nbits w) = exec i (s.withFetchWord nbits w) := by
  unfold decodeTableWord at h
  simp only [step, withFetchWord_fault, fetch_withFetchWord nbits w hm]
  split at h
  · rename_i hd; cases h; simp [hd]
  · cases h

end Sys2Proof.Machine
end

