-- ==== Sys2Proof/Tests/Slice0.lean ====
section
/-! SUPPORT. Tests: every expected value is taken from `95_test_vectors.md` (its vector is named) or
from the encodings of `30_encoding.md`; and a witness for the hypotheses of every statement. -/

namespace Sys2Proof.Tests

open Sys2Proof.Machine

/-! ## Small states -/

/-- The reset state with `pc` and some registers set. -/
def bench (pc : Addr) (v : List (Reg × Byte)) : State :=
  v.foldl (fun s r => s.setV r.1 r.2) { State.reset with pc := pc }

/-- `s` with bytes placed in memory. -/
def poked (s : State) (a : Nat) (bytes : List Byte) : State := { s with mem := s.mem.writeAll a bytes }

/-- `s` with `ADDR_OVERFLOW = FaultOnCarry`. -/
def carrying (s : State) : State := { s with cfg := { s.cfg with addrOverflow := .faultOnCarry } }

/-- `s` with a finite `STACK_DEPTH`. -/
def shallow (depth : Nat) (s : State) : State := { s with cfg := { s.cfg with stackDepth := some depth } }

/-- `s` with `LOGIC_VF` set. -/
def withLogic (l : LogicVf) (s : State) : State := { s with cfg := { s.cfg with logicVf := l } }

/-- `s` with `KEY_OOR` set. -/
def withKeyOor (k : KeyOor) (s : State) : State := { s with cfg := { s.cfg with keyOor := k } }

/-- `s` with the pixels at (row, column) on. -/
def lit (s : State) (ps : List (Fin 32 × Fin 64)) : State :=
  { s with fb := ps.foldl (fun fb p => setPixel fb p.1 p.2 true) s.fb }

/-- What `f` shows of the state after one step that runs the word `w` from `s`. -/
def after {α : Type} (w : Nat) (s : State) (f : State → α) : Option α :=
  match step (s.withFetchWord 16 w) with
  | .next t => some (f t)
  | .fault _ => none
  | .refused _ => none

/-! ## Ill-formed terms are refused -/

theorem test_wf_refuses_fields_nn : Fields.wf ⟨6, 0xA, 7, 0xB, 0x00, 0xA00⟩ = false := by decide

theorem test_wf_refuses_fields_nnn : Fields.wf ⟨6, 0xA, 7, 0xB, 0x7B, 0x07B⟩ = false := by decide

theorem test_wf_accepts_fields : Fields.wf ⟨6, 0xA, 7, 0xB, 0x7B, 0xA7B⟩ = true := by decide

theorem test_wf_refuses_depth_zero : (shallow 0 State.reset).cfg.wf = false := by decide

theorem test_wf_accepts_params : Params.default.wf = true ∧ (shallow 1 State.reset).cfg.wf = true := by decide

/-- X3: `Load(0x1001, [])` is too long, `Load(0x1000, [])` is not. -/
theorem test_wf_image : imageFits 0x1001 [] = false ∧ imageFits 0x1000 [] = true := by decide

theorem test_wf_memory : Memory.wf [(0x200, 0x60), (0x201, 1)] = true ∧ Memory.wf [(0x201, 1), (0x200, 1)] = false ∧
    Memory.wf [(0x200, 0)] = false ∧ Memory.wf [(0x1000, 1)] = false := by decide

/-! ## Decoding: the words are written out from the patterns of R100 -/

theorem test_decode_control :
    [0x00E0, 0x00EE, 0x1204, 0x2210, 0xB300].map decode =
      [.ok .cls, .ok .ret, .ok (.jp 0x204), .ok (.call 0x210), .ok (.jpV0 0x300)] := by decide

theorem test_decode_skips :
    [0x3F01, 0x4311, 0x5120, 0x9120, 0xE59E, 0xE5A1].map decode =
      [.ok (.seImm 15 1), .ok (.sneImm 3 0x11), .ok (.seReg 1 2), .ok (.sneReg 1 2), .ok (.skp 5), .ok (.sknp 5)] := by
  decide

theorem test_decode_load_add_random :
    [0x6A7B, 0x72FF, 0xC30F].map decode =
      [.ok (.ldImm 10 0x7B), .ok (.addImm 2 0xFF), .ok (.rnd 3 0x0F)] := by decide

theorem test_decode_alu :
    [0x8120, 0x8121, 0x8122, 0x8123, 0x8014, 0x8345, 0x8236, 0x8347, 0x8FFE].map decode =
      [.ok (.ldReg 1 2), .ok (.or 1 2), .ok (.and 1 2), .ok (.xor 1 2), .ok (.addReg 0 1), .ok (.sub 3 4),
       .ok (.shr 2 3), .ok (.subn 3 4), .ok (.shl 15 15)] := by decide

theorem test_decode_index_memory :
    [0xA300, 0xF21E, 0xF429, 0xFA33, 0xF155, 0xFF65].map decode =
      [.ok (.ldI 0x300), .ok (.addI 2), .ok (.ldF 4), .ok (.ldB 10), .ok (.ldMemVx 1), .ok (.ldVxMem 15)] := by
  decide

theorem test_decode_display : decode 0xDF12 = .ok (.drw 15 1 2) := by decide

theorem test_decode_hooks :
    [0xF307, 0xF10A, 0xF215, 0xF218].map decode =
      [.ok (.ldVxDt 3), .ok (.ldVxK 1), .ok (.ldDtVx 2), .ok (.ldStVx 2)] := by decide

/-- I1 to I14. -/
theorem test_decode_illegal :
    [0x0000, 0x0123, 0x01E0, 0x00E1, 0x0FEE, 0x5121, 0x9AB7, 0x812F, 0xE09F, 0xE19D, 0xF000, 0xF130, 0xF175,
      0xFFFF].map decode =
      [.error .family0, .error .family0, .error .family0, .error .family0, .error .family0, .error .family5,
       .error .family9, .error .family8, .error .familyE, .error .familyE, .error .familyF, .error .familyF,
       .error .familyF, .error .familyF] := by decide

theorem test_decode_bytes :
    decodeBytes [0x6A, 0x7B, 0xFF] = .ok (.ldImm 10 0x7B, [0xFF]) ∧ decodeBytes [0x6A] = .error .truncated ∧
      decodeBytes [] = .error .truncated := by decide

theorem test_decode_table_word :
    decodeTableWord 16 0x6A7B = some (.ldImm 10 0x7B) ∧ decodeTableWord 16 0x0123 = none := by decide

/-! ## The instruction cycle -/

/-- F1. -/
theorem test_fetch_at_the_top :
    (match step (poked (bench 0xFFF []) 0xFFF [0x12]) with
      | .next t => some (t.fault, t.pc)
      | _ => none) = some (some (.outOfBounds 4096), 0xFFF) := by decide

/-- F4. -/
theorem test_fetch_odd :
    (match step (poked (bench 0x201 []) 0x200 [0x00, 0x6A, 0x7B]) with
      | .next t => some (t.getV 10, t.pc)
      | _ => none) = some (0x7B, 0x203) := by decide

/-- F3, X4. -/
theorem test_reset_step_and_again :
    (hostStep State.reset).2 = .faulted (.illegalInstruction 0x200) ∧
      hostStep (hostStep State.reset).1 = ((hostStep State.reset).1, .faulted (.illegalInstruction 0x200)) := by
  decide

/-! ## Control transfer -/

/-- T2, T3. -/
theorem test_ret : after 0x00EE { bench 0x300 [] with stack := [0x20A, 0x206] } (fun t => (t.pc, t.stack)) =
    some (0x20A, [0x206]) := by decide

theorem test_ret_empty : after 0x00EE (bench 0x214 []) (fun t => (t.fault, t.pc, t.stack)) =
    some (some .missingReturnAddress, 0x214, []) := by decide

/-- T6. -/
theorem test_jp : after 0x1FFF (bench 0x200 []) (fun t => (t.pc, t.fault)) = some (0xFFF, none) := by decide

/-- T8. -/
theorem test_call : after 0x2300 (bench 0xFFE []) (fun t => (t.pc, t.stack)) = some (0x300, [0x000]) := by decide

/-- T9. -/
theorem test_call_full :
    after 0x2210 (shallow 2 { bench 0x220 [] with stack := [0x216, 0x206] }) (fun t => (t.fault, t.pc, t.stack)) =
      some (some .stackOverflow, 0x220, [0x216, 0x206]) := by decide

/-- T11. -/
theorem test_jpV0_wraps : after 0xBFFF (bench 0x200 [(0, 2)]) (fun t => t.pc) = some 0x001 := by decide

/-- T12. -/
theorem test_jpV0_is_V0 : after 0xB2F0 (bench 0x200 [(0, 0x10), (2, 0x55)]) (fun t => t.pc) = some 0x300 := by decide

/-! ## Skips -/

/-- S10. -/
theorem test_seImm : after 0x3F01 (bench 0xFFC [(15, 1)]) (fun t => t.pc) = some 0x000 := by decide

/-- S2. -/
theorem test_seImm_no_skip : after 0x3000 (bench 0x206 [(0, 5)]) (fun t => t.pc) = some 0x208 := by decide

/-- S3. -/
theorem test_sneImm : after 0x4311 (bench 0x300 [(3, 0x10)]) (fun t => t.pc) = some 0x304 := by decide

/-- S12. -/
theorem test_sneImm_no_skip : after 0x4000 (bench 0xFFE []) (fun t => t.pc) = some 0x000 := by decide

/-- S5. -/
theorem test_seReg : after 0x5120 (bench 0x200 [(1, 7), (2, 7)]) (fun t => t.pc) = some 0x204 := by decide

/-- S6. -/
theorem test_seReg_no_skip : after 0x5120 (bench 0x200 [(1, 7), (2, 8)]) (fun t => t.pc) = some 0x202 := by decide

/-- S8. -/
theorem test_sneReg : after 0x9120 (bench 0x200 [(1, 7), (2, 8)]) (fun t => t.pc) = some 0x204 := by decide

/-- S9. -/
theorem test_sneReg_no_skip : after 0x9120 (bench 0x200 [(1, 7), (2, 7)]) (fun t => t.pc) = some 0x202 := by decide

/-- S13. -/
theorem test_skp : after 0xE59E { bench 0x220 [(5, 0x0A)] with keys := ⟨[true, false], 0⟩ }
    (fun t => (t.pc, t.keys)) = some (0x224, ⟨[false], 1⟩) := by decide

/-- S17. -/
theorem test_skp_out_of_range : after 0xE59E (bench 0x220 [(5, 16)]) (fun t => (t.fault, t.pc, t.keys)) =
    some (some (.keyOutOfRange 16), 0x220, ⟨[], 0⟩) := by decide

/-- S15. -/
theorem test_sknp : after 0xE5A1 { bench 0x220 [(5, 0x0A)] with keys := ⟨[false], 0⟩ } (fun t => t.pc) =
    some 0x224 := by decide

/-- S16. -/
theorem test_sknp_no_skip : after 0xE5A1 { bench 0x220 [(5, 0x0A)] with keys := ⟨[true], 0⟩ } (fun t => t.pc) =
    some 0x222 := by decide

/-! ## Load, add, random -/

/-- F2. -/
theorem test_ldImm : after 0x6011 (bench 0xFFE []) (fun t => (t.getV 0, t.pc)) = some (0x11, 0x000) := by decide

/-- F2 under `FaultOnCarry`. -/
theorem test_ldImm_carry : after 0x6011 (carrying (bench 0xFFE [])) (fun t => (t.fault, t.getV 0, t.pc)) =
    some (some .addressCarry, 0x00, 0xFFE) := by decide

/-- L3. -/
theorem test_addImm : after 0x7001 (bench 0x200 [(0, 0xFF), (15, 0x55)]) (fun t => (t.getV 0, t.getV 15)) =
    some (0x00, 0x55) := by decide

/-- L8. -/
theorem test_rnd : after 0xC30F { bench 0x200 [] with rng := ⟨[0xB7, 0x3A], 0⟩ } (fun t => (t.getV 3, t.rng)) =
    some (0x07, ⟨[0x3A], 1⟩) := by decide

/-! ## The ALU -/

/-- A6 under `Zero` and under `Untouched`. -/
theorem test_ldReg :
    after 0x8F20 (withLogic .zero (bench 0x200 [(2, 0x33)])) (fun t => t.getV 15) = some 0x00 ∧
      after 0x8F20 (withLogic .untouched (bench 0x200 [(2, 0x33)])) (fun t => t.getV 15) = some 0x33 := by decide

/-- A1 under `AnyByte`, with an injected draw. -/
theorem test_ldReg_draw : after 0x8120 { bench 0x200 [(2, 0x33), (15, 0x77)] with vfDraws := ⟨[0x5A], 0⟩ }
    (fun t => (t.getV 1, t.getV 15)) = some (0x33, 0x5A) := by decide

/-- A2. -/
theorem test_or : after 0x8121 (bench 0x200 [(1, 0xF0), (2, 0x0C)]) (fun t => t.getV 1) = some 0xFC := by decide

/-- A3. -/
theorem test_and : after 0x8122 (bench 0x200 [(1, 0xF5), (2, 0x3C)]) (fun t => t.getV 1) = some 0x34 := by decide

/-- A4. -/
theorem test_xor : after 0x8123 (bench 0x200 [(1, 0xFF), (2, 0x0F)]) (fun t => t.getV 1) = some 0xF0 := by decide

/-- A7. -/
theorem test_addReg : after 0x8014 (bench 0x200 [(0, 0xC8), (1, 0x64)]) (fun t => (t.getV 0, t.getV 15)) =
    some (0x2C, 1) := by decide

/-- A10. -/
theorem test_addReg_flag_wins : after 0x8F14 (bench 0x200 [(15, 5), (1, 2)]) (fun t => t.getV 15) = some 0 := by decide

/-- A13. -/
theorem test_sub : after 0x8345 (bench 0x200 [(3, 0x10), (4, 0x20)]) (fun t => (t.getV 3, t.getV 15)) =
    some (0xF0, 0) := by decide

/-- A14. -/
theorem test_sub_equal : after 0x8015 (bench 0x200 [(0, 0x42), (1, 0x42)]) (fun t => (t.getV 0, t.getV 15)) =
    some (0, 1) := by decide

/-- A18. -/
theorem test_shr : after 0x8236 (bench 0x200 [(2, 0x85), (3, 0xFF)]) (fun t => (t.getV 2, t.getV 3, t.getV 15)) =
    some (0x42, 0xFF, 1) := by decide

/-- A22. -/
theorem test_shr_flag_wins : after 0x8F06 (bench 0x200 [(15, 2)]) (fun t => t.getV 15) = some 0 := by decide

/-- A23. -/
theorem test_subn : after 0x8347 (bench 0x200 [(3, 0x10), (4, 0x20)]) (fun t => (t.getV 3, t.getV 15)) =
    some (0x10, 1) := by decide

/-- A24. -/
theorem test_subn_borrow : after 0x8347 (bench 0x200 [(3, 0x20), (4, 0x10)]) (fun t => (t.getV 3, t.getV 15)) =
    some (0xF0, 0) := by decide

/-- A26. -/
theorem test_shl : after 0x820E (bench 0x200 [(2, 0x85)]) (fun t => (t.getV 2, t.getV 15)) = some (0x0A, 1) := by decide

/-- A30. -/
theorem test_shl_flag_wins : after 0x8FFE (bench 0x200 [(15, 0x41)]) (fun t => t.getV 15) = some 0 := by decide

/-! ## Index register and memory transfer -/

/-- M1. -/
theorem test_ldI : after 0xA300 (bench 0x200 []) (fun t => (t.i, t.pc)) = some (0x300, 0x202) := by decide

/-- M3. -/
theorem test_addI : after 0xF21E { bench 0x200 [(2, 1), (15, 0x55)] with i := 0xFFF } (fun t => (t.i, t.getV 15)) =
    some (0x000, 0x55) := by decide

/-- M3 under `FaultOnCarry`. -/
theorem test_addI_carry : after 0xF21E (carrying { bench 0x200 [(2, 1)] with i := 0xFFF }) (fun t => (t.fault, t.i)) =
    some (some .addressCarry, 0xFFF) := by decide

/-- M6. -/
theorem test_ldF : after 0xF429 (bench 0x200 [(4, 0x1A)]) (fun t => t.i) = some 0x082 := by decide

/-- M9. -/
theorem test_ldB : after 0xF033 { bench 0x200 [(0, 0xFF)] with i := 0xFFD }
    (fun t => (t.mem.read 0xFFD, t.mem.read 0xFFE, t.mem.read 0xFFF, t.i)) = some (2, 5, 5, 0xFFD) := by decide

/-- M10. -/
theorem test_ldB_out_of_bounds : after 0xF033 { bench 0x200 [(0, 0xFF)] with i := 0xFFE }
    (fun t => (t.fault, t.mem.read 0xFFE, t.mem.read 0xFFF, t.pc)) =
      some (some (.outOfBounds 4096), 0, 0, 0x200) := by decide

/-- M16. -/
theorem test_ldMemVx : after 0xF255 { bench 0x200 [(0, 1), (1, 2), (2, 3)] with i := 0xFFD }
    (fun t => (t.mem.read 0xFFD, t.mem.read 0xFFE, t.mem.read 0xFFF, t.i)) = some (1, 2, 3, 0x000) := by decide

/-- M17. -/
theorem test_ldMemVx_out_of_bounds : after 0xF255 { bench 0x200 [(0, 1), (1, 2), (2, 3)] with i := 0xFFE }
    (fun t => (t.fault, t.mem.read 0xFFE, t.i, t.pc)) = some (some (.outOfBounds 4096), 0, 0xFFE, 0x200) := by decide

/-- M18. -/
theorem test_ldVxMem : after 0xF265 { poked (bench 0x200 [(3, 0x77)]) 0x300 [1, 2, 3, 4] with i := 0x300 }
    (fun t => (t.getV 0, t.getV 1, t.getV 2, t.getV 3, t.i)) = some (1, 2, 3, 0x77, 0x303) := by decide

/-- M20. -/
theorem test_ldVxMem_out_of_bounds :
    after 0xF165 { poked (bench 0x200 [(0, 7), (1, 8)]) 0xFFF [0x33] with i := 0xFFF }
      (fun t => (t.fault, t.getV 0, t.i)) = some (some (.outOfBounds 4096), 7, 0xFFF) := by decide

/-! ## The display -/

/-- B20. -/
theorem test_cls : after 0x00E0 (lit (bench 0x200 [(15, 1)]) [(0, 0), (31, 63)])
    (fun t => (pixel t.fb 0 0, pixel t.fb 31 63, t.getV 15)) = some (false, false, 1) := by decide

/-- B23, with (0,6) lit beforehand: it is erased, and the collision reported. -/
theorem test_drw : after 0xD012 (lit { poked (bench 0x200 [(0, 0x3F), (1, 0x1F)]) 0x20E [0xFF, 0x81] with i := 0x20E } [(0, 6)])
    (fun t => (pixel t.fb 31 63, pixel t.fb 31 6, pixel t.fb 0 63, pixel t.fb 0 6, pixel t.fb 0 0, t.getV 15)) =
      some (true, true, true, false, false, 1) := by decide

/-- B25. -/
theorem test_drw_out_of_bounds : after 0xD012 { poked (bench 0x200 [(15, 0x77)]) 0xFFF [0xFF] with i := 0xFFF }
    (fun t => (t.fault, pixel t.fb 0 0, t.getV 15, t.pc)) =
      some (some (.outOfBounds 4096), false, 0x77, 0x200) := by decide

/-- The last two rows of B12: row 32 lies over display row 0 again and erases (0,0). -/
theorem test_blit_33_rows :
    let d := blitRows 0 0 31 [0x00, 0x80] ⟨setPixel clearDisplay 0 0 true, false⟩
    (d.collision, pixel d.fb 0 0) = (true, false) := by decide

/-- B4. -/
theorem test_blit_part : let d := blit [0xF0] 2 3 (lit State.reset [(3, 5), (3, 6), (3, 7)]).fb
    (d.collision, pixel d.fb 3 2, pixel d.fb 3 5, pixel d.fb 3 6) = (true, true, false, true) := by decide

/-! ## Hooks -/

/-- H1. -/
theorem test_ldVxDt : after 0xF307 (bench 0x200 [(3, 0x2A)]) (fun t => (t.getV 3, t.pc, t.hooks)) =
    some (0x2A, 0x202, [.readDelay 3]) := by decide

/-- H2. -/
theorem test_ldVxK : after 0xF10A (bench 0x300 [(1, 7)]) (fun t => (t.getV 1, t.pc, t.keys, t.hooks)) =
    some (7, 0x302, ⟨[], 0⟩, [.waitKey 1]) := by decide

/-- H3. -/
theorem test_ldDtVx : after 0xF215 (bench 0x200 [(2, 0x3C)]) (fun t => (t.pc, t.hooks)) =
    some (0x202, [.writeDelay 2 0x3C]) := by decide

/-- H4. -/
theorem test_ldStVx : after 0xF218 (bench 0x200 [(2, 5)]) (fun t => (t.pc, t.hooks)) =
    some (0x202, [.writeSound 2 5]) := by decide

/-! ## Host transactions -/

/-- X3, and a load that is one byte too long. -/
theorem test_load :
    (hostLoad 0x1000 [] State.reset).2 = .ok ∧ (hostLoad 0x1001 [] State.reset).2 = .outOfBounds ∧
      (hostLoad 0xFFF [1, 2] State.reset).2 = .outOfBounds ∧ (hostLoad 0xFFF [1, 2] State.reset).1.mem = [] ∧
      (hostLoad 0xFFE [1, 2] State.reset).1.mem = [(0xFFE, 1), (0xFFF, 2)] := by decide

/-- X5, and the boot sequence. -/
theorem test_boot :
    (boot [0x6A, 0x7B] { bench 0x300 [(1, 5)] with fault := some .addressCarry }).1 =
      { State.reset with mem := [(0x200, 0x6A), (0x201, 0x7B)], rng := ⟨[], 1⟩, keys := ⟨[], 1⟩, vfDraws := ⟨[], 1⟩ } := by
  decide

/-- What the host reads, and the numbers of the faults (R333). -/
theorem test_readouts :
    faultRead (hostStep State.reset).1 = some (.illegalInstruction 0x200) ∧ displayRead State.reset = clearDisplay ∧
      stateRead (bench 0x300 [(1, 5)]) = ⟨(bench 0x300 [(1, 5)]).v, 0x300, 0, []⟩ ∧
      [Fault.outOfBounds 4096, .illegalInstruction 0, .missingReturnAddress, .stackOverflow, .keyOutOfRange 16,
        .addressCarry].map Fault.code = [1, 2, 3, 4, 5, 6] := by decide

/-! ## Witnesses: concrete states and operands that meet the hypotheses of each statement together,
at boundary values; where a statement has several clauses, a conjunct for each -/

theorem witness_ResetStatesSatisfyInv : (shallow 1 (withKeyOor .draw (carrying State.reset))).cfg.wf = true := by decide

theorem reset_inv : Inv State.reset :=
  ⟨by decide, by decide, fun _ h => (nomatch h), fun _ h => nomatch h⟩

/-- A completing step (F2) and a faulting one (F3). -/
theorem witness_StepKeepsInv :
    (Inv (poked State.reset 0x200 [0x60, 0x11]) ∧ ∃ t, step (poked State.reset 0x200 [0x60, 0x11]) = .next t ∧ Running t) ∧
      (Inv State.reset ∧ ∃ t, step State.reset = .next t ∧ t.fault = some (.illegalInstruction 0x200)) :=
  ⟨⟨⟨by decide, by decide, fun _ h => (nomatch h), fun _ h => nomatch h⟩, _, rfl, rfl⟩, reset_inv, _, rfl, rfl⟩

/-- The empty load one past the end is rejected (X3), and one that ends at the last byte is not. -/
theorem witness_HostTransactionsKeepInv :
    Inv State.reset ∧ (hostLoad 0x1001 [] State.reset).2 = .outOfBounds ∧ (hostLoad 0xFFE [1, 2] State.reset).2 = .ok :=
  ⟨reset_inv, by decide, by decide⟩

theorem witness_EncodeOfDecode : decode 0x8FFE = .ok (.shl 15 15) := by decide

theorem witness_DecodeAgreesWithOpcodeTable :
    decode 0xDF1F = .ok (.drw 15 1 15) ∧ (0xDF1F : Word) &&& 0xF000 = 0xD000 := by decide

theorem witness_FetchIsBigEndian : (bench 0xFFE []).pc ≠ 0xFFF ∧ (bench 0xFFF []).pc = 0xFFF := by decide

theorem witness_StepRunsDecodedInstruction :
    let s := poked (bench 0xFFE []) 0xFFE [0x60, 0x11]
    Running s ∧ s.pc ≠ 0xFFF ∧ decode (wordOf (s.mem.read s.pc.toNat) (s.mem.read (s.pc.toNat + 1))) = .ok (.ldImm 0 0x11) := by
  decide

theorem witness_IllegalWordFaults :
    let s := poked (bench 0xFFE []) 0xFFE [0x81, 0x2F]
    Running s ∧ s.pc ≠ 0xFFF ∧ decode (wordOf (s.mem.read s.pc.toNat) (s.mem.read (s.pc.toNat + 1))) = .error .family8 := by
  decide

/-- A machine that runs, and one whose latch is set. -/
theorem witness_StepIsTotal :
    Running State.reset ∧ step { State.reset with fault := some .missingReturnAddress } = .fault .missingReturnAddress :=
  ⟨rfl, rfl⟩

theorem witness_FaultsAreSticky :
    Running State.reset ∧ (∃ t, step State.reset = .next t ∧ t.fault = some (.illegalInstruction 0x200)) ∧
      ({ State.reset with fault := some .stackOverflow } : State).fault = some .stackOverflow :=
  ⟨rfl, ⟨_, rfl, rfl⟩, rfl⟩

/-- M17: a store that leaves the memory half way. -/
theorem witness_FaultChangesOnlyTheLatch :
    let s := { poked (bench 0x200 [(0, 1)]) 0x200 [0xF2, 0x55] with i := 0xFFE }
    Running s ∧ ∃ t, step s = .next t ∧ t.fault = some (.outOfBounds 4096) := ⟨rfl, _, rfl, rfl⟩

theorem witness_LatchIsInvisibleToInstructions :
    Running (bench 0x200 [(0, 0xFF)]) ∧ ∃ t, exec (.addImm 0 1) (bench 0x200 [(0, 0xFF)]) = .next t ∧ t.getV 0 = 0 :=
  ⟨rfl, _, rfl, rfl⟩

/-- One step for each of the faults 1, 2, 3 and 5. -/
theorem witness_FaultKindsUnderDefaults :
    (State.reset.cfg.addrOverflow = .wrap12 ∧ State.reset.cfg.stackDepth = none ∧ Running State.reset) ∧
      (∃ t, step (bench 0xFFF []) = .next t ∧ t.fault = some (.outOfBounds 4096)) ∧
      (∃ t, step State.reset = .next t ∧ t.fault = some (.illegalInstruction 0x200)) ∧
      (∃ t, step (poked State.reset 0x200 [0x00, 0xEE]) = .next t ∧ t.fault = some .missingReturnAddress) ∧
      (∃ t, step (poked (bench 0x200 [(5, 16)]) 0x200 [0xE5, 0x9E]) = .next t ∧ t.fault = some (.keyOutOfRange 16)) :=
  ⟨⟨rfl, rfl, rfl⟩, ⟨_, rfl, rfl⟩, ⟨_, rfl, rfl⟩, ⟨_, rfl, rfl⟩, ⟨_, rfl, rfl⟩⟩

/-- The first base out of bounds of each form; the last one in bounds is in the witnesses of the results. -/
theorem witness_OutOfBoundsAccessesFault :
    (Running (bench 0xFFF []) ∧ (bench 0xFFF []).pc = 0xFFF) ∧
      (1 ≤ (2 : Fin 16).val ∧ 4096 < ({ State.reset with i := 0xFFF } : State).i.toNat + (2 : Fin 16).val) ∧
      4096 ≤ ({ State.reset with i := 0xFFE } : State).i.toNat + 2 ∧
      4096 ≤ ({ State.reset with i := 0xFFF } : State).i.toNat + (1 : Reg).val := by decide

/-- A finite stack with one place left, and `pc + 2` the first address that carries. -/
theorem witness_OnCarryTheFaultIsTaken_call :
    let s := carrying (shallow 2 { bench 0xFFE [] with stack := [0x206] })
    ¬CanAdvance s ∧ ∀ depth, s.cfg.stackDepth = some depth → s.stack.length < depth := by
  refine ⟨by decide, fun d h => ?_⟩
  cases h
  decide

/-- The first key number out of range, under `Draw` and under `Mask4` (which asks about key 0), at the first
`pc` from which `pc + 2` carries and at the first from which `pc + 4` does. -/
theorem witness_OnCarryTheFaultIsTaken_keys :
    (let s := withKeyOor .draw (carrying (bench 0xFFE [(5, 16)]))
     ¬CanAdvance s ∧ ¬(s.getV 5).toNat < 16 ∧ s.cfg.keyOor ≠ .fault) ∧
      (let s := withKeyOor .draw { carrying (bench 0xFFC [(5, 16)]) with keys := ⟨[true], 0⟩ }
       s.cfg.keyOor ≠ .fault ∧ ¬AddrFits s (s.pc.toNat + 4) ∧ s.keys.value (Config.freeKey (s.getV 5)) = true) ∧
      (let s := withKeyOor .mask4 { carrying (bench 0xFFC [(5, 16)]) with keys := ⟨[false], 0⟩ }
       16 ≤ (s.getV 5).toNat ∧ s.cfg.keyOor = .mask4 ∧ ¬AddrFits s (s.pc.toNat + 4) ∧
         s.getV 5 &&& 0x0F = 0 ∧ s.keys.value (Config.freeKey (s.getV 5 &&& 0x0F)) = false) := by decide

/-- Each other clause at the first address that carries. -/
theorem witness_OnCarryTheFaultIsTaken :
    ¬CanAdvance (carrying (bench 0xFFE [])) ∧ ¬CanAdvance (carrying (bench 0xFFF [])) ∧
      ((0 : Fin 16).val = 0 ∨ ({ State.reset with i := 0xFF1 } : State).i.toNat + (15 : Fin 16).val ≤ 4096) ∧
      ({ State.reset with i := 0xFFD } : State).i.toNat + 2 < 4096 ∧
      ((bench 0xFFE [(1, 15)]).getV 1).toNat < 16 ∧
      (let s := carrying (bench 0xFFC [(15, 1)]); s.getV 15 = 1 ∧ s.getV 15 = s.getV 15 ∧ ¬AddrFits s (s.pc.toNat + 4)) ∧
      (let s := carrying (bench 0xFFC [(15, 1)]); s.getV 15 ≠ 2 ∧ s.getV 15 ≠ s.getV 0 ∧ ¬AddrFits s (s.pc.toNat + 4)) ∧
      (let s := { carrying (bench 0xFFC [(5, 15)]) with keys := ⟨[true], 0⟩ }
       (s.getV 5).toNat < 16 ∧ ¬AddrFits s (s.pc.toNat + 4) ∧ s.keys.value (Config.freeKey (s.getV 5)) = true) ∧
      (let s := { carrying (bench 0xFFC [(5, 15)]) with keys := ⟨[false], 0⟩ }
       (s.getV 5).toNat < 16 ∧ ¬AddrFits s (s.pc.toNat + 4) ∧ s.keys.value (Config.freeKey (s.getV 5)) = false) ∧
      (let s := carrying (bench 0x200 [(0, 1)]); ¬AddrFits s ((0xFFF : Addr).toNat + (s.getV 0).toNat)) ∧
      (let s := { carrying (bench 0x200 [(2, 1)]) with i := 0xFFF }; ¬AddrFits s (s.i.toNat + (s.getV 2).toNat)) ∧
      (let s := { carrying (bench 0x200 []) with i := 0xFFD }
       s.i.toNat + (2 : Reg).val < 4096 ∧ ¬(AddrFits s (s.i.toNat + (2 : Reg).val + 1) ∧ CanAdvance s)) := by decide

/-- An instruction that advances, one that skips and one that sets `pc`. -/
theorem witness_CompletedInstructionsAdvancePc :
    (Running (bench 0xFFE []) ∧ ∃ t, exec .cls (bench 0xFFE []) = .next t ∧ Running t) ∧
      (∃ t, exec (.seImm 0 0) (bench 0xFFC []) = .next t ∧ Running t) ∧
      (∃ t, exec (.jp 0xFFF) (bench 0x200 []) = .next t ∧ Running t) :=
  ⟨⟨rfl, _, rfl, rfl⟩, ⟨_, rfl, rfl⟩, ⟨_, rfl, rfl⟩⟩

theorem witness_MemoryReadAfterWrite : State.reset.mem.wf = true ∧ 4095 < 4096 ∧ 4096 ≤ 4096 := by decide

/-- A load that ends at the last byte, one that is a byte too long, and the empty load (X3). -/
theorem witness_LoadCopiesOrRejects :
    (poked State.reset 0x200 [1]).mem.wf = true ∧ 0xFFE + [(1 : Byte), 2].length ≤ 4096 ∧
      4096 < 0xFFF + [(1 : Byte), 2].length ∧ 0x1000 + ([] : List Byte).length ≤ 4096 := by decide

theorem witness_OnlyStoresWriteMemory :
    writesMemory (.addImm 0 1) = false ∧ ∃ t, exec (.addImm 0 1) State.reset = .next t := ⟨rfl, _, rfl⟩

theorem witness_OnlyDisplayInstructionsWriteDisplay :
    writesDisplay (.ldMemVx 3) = false ∧ ∃ t, exec (.ldMemVx 3) State.reset = .next t := ⟨rfl, _, rfl⟩

theorem witness_OnlyNamedInstructionsWriteStackAndIndex :
    usesStack (.ldMemVx 3) = false ∧ writesIndex (.call 0x300) = false ∧
      (∃ t, exec (.ldMemVx 3) State.reset = .next t) ∧ ∃ t, exec (.call 0x300) State.reset = .next t :=
  ⟨rfl, rfl, ⟨_, rfl⟩, _, rfl⟩

theorem witness_OnlyDestinationRegistersChange :
    writesReg (.ldVxMem 3) 4 = false ∧ writesReg (.addReg 1 2) 2 = false ∧
      (∃ t, exec (.ldVxMem 3) State.reset = .next t) ∧ ∃ t, exec (.addReg 1 2) State.reset = .next t :=
  ⟨rfl, rfl, ⟨_, rfl⟩, _, rfl⟩

/-- A store, and a sprite (the first byte of B23) on a clear display. -/
theorem witness_DisplayIsIsolated :
    ((∀ x y n, Instr.ldB 0 ≠ .drw x y n) ∧ ∃ t, exec (.ldB 0) (bench 0x200 [(0, 0xFF)]) = .next t ∧ t.mem.read 0 = 2) ∧
      ∃ t, exec (.drw 0 1 1) { poked (bench 0x200 [(15, 7)]) 0x20E [0xFF] with i := 0x20E } = .next t ∧ t.getV 15 = 0 :=
  ⟨⟨fun _ _ _ h => (nomatch h), _, rfl, rfl⟩, _, rfl, by decide⟩

/-- One instruction for each count, and one that draws nothing. -/
theorem witness_DrawsPerInstruction :
    Running State.reset ∧ (∃ t, exec (.rnd 0 1) State.reset = .next t ∧ Running t) ∧
      (∃ t, exec (.skp 0) State.reset = .next t ∧ Running t) ∧ (∃ t, exec (.or 0 1) State.reset = .next t ∧ Running t) ∧
      (∃ t, exec (.ldVxK 0) State.reset = .next t ∧ Running t) ∧ ∃ t, exec .cls State.reset = .next t ∧ Running t :=
  ⟨rfl, ⟨_, rfl, rfl⟩, ⟨_, rfl, rfl⟩, ⟨_, rfl, rfl⟩, ⟨_, rfl, rfl⟩, _, rfl, rfl⟩

theorem witness_ReturnPopsOrFaults :
    ({ State.reset with stack := [0x206] } : State).stack = 0x206 :: [] ∧ State.reset.stack = [] := by decide

/-- T5. -/
theorem witness_JumpSetsPc :
    let s := poked (bench 0x208 []) 0x208 [0x12, 0x08]
    Running s ∧ s.pc ≠ 0xFFF ∧ wordOf (s.mem.read s.pc.toNat) (s.mem.read (s.pc.toNat + 1)) = encode (.jp s.pc) := by decide

/-- A sum of 0xFFF where a carry faults, and one of 0x10FE where it wraps. -/
theorem witness_JumpPlusV0SetsPc :
    (let s := carrying (bench 0x200 [(0, 1)]); AddrFits s ((0xFFE : Addr).toNat + (s.getV 0).toNat)) ∧
      (let s := bench 0x200 [(0, 0xFF)]; AddrFits s ((0xFFF : Addr).toNat + (s.getV 0).toNat)) := by decide

/-- The last free place of a finite stack, and a full one (T9). -/
theorem witness_CallPushesReturnAddress :
    (let s := shallow 2 { bench 0x220 [] with stack := [0x206] }
     (∀ depth, s.cfg.stackDepth = some depth → s.stack.length < depth) ∧ CanAdvance s) ∧
      (let s := shallow 2 { bench 0x220 [] with stack := [0x216, 0x206] }
       s.cfg.stackDepth = some 2 ∧ 2 ≤ s.stack.length) := by
  refine ⟨⟨fun d h => ?_, by decide⟩, by decide⟩
  cases h
  decide

theorem witness_CallThenReturnComesBack :
    Running (bench 0xFFE []) ∧ ∃ t, exec (.call 0x300) (bench 0xFFE []) = .next t ∧ Running t ∧
      ({ bench 0x214 [(1, 3)] with stack := [0x000] } : State).stack = t.stack := ⟨rfl, _, rfl, rfl, rfl⟩

/-- The highest `pc` from which each way fits when a carry faults. -/
theorem witness_CompareSkips :
    (let s := carrying (bench 0xFFB [(1, 7)]); AddrFits s (s.pc.toNat + if s.getV 1 = 7 then 4 else 2)) ∧
      (let s := carrying (bench 0xFFD [(1, 7)]); AddrFits s (s.pc.toNat + if s.getV 1 ≠ 7 then 4 else 2)) ∧
      (let s := carrying (bench 0xFFD [(1, 7)]); AddrFits s (s.pc.toNat + if s.getV 1 = s.getV 2 then 4 else 2)) ∧
      (let s := carrying (bench 0xFFB [(1, 7)]); AddrFits s (s.pc.toNat + if s.getV 1 ≠ s.getV 2 then 4 else 2)) := by
  decide

/-- The last key number in range, with injected answers, at the highest `pc` that fits. -/
theorem witness_KeySkips :
    (let s := { carrying (bench 0xFFB [(5, 15)]) with keys := ⟨[true], 0⟩ }
     (s.getV 5).toNat < 16 ∧ AddrFits s (s.pc.toNat + if s.keys.value (Config.freeKey (s.getV 5)) then 4 else 2)) ∧
      (let s := { carrying (bench 0xFFD [(5, 15)]) with keys := ⟨[true], 0⟩ }
       (s.getV 5).toNat < 16 ∧ AddrFits s (s.pc.toNat + if s.keys.value (Config.freeKey (s.getV 5)) then 2 else 4)) := by
  decide

/-- The first key number out of range, under each setting. -/
theorem witness_KeySkipsOutOfRange :
    (let s := bench 0x220 [(5, 16)]; 16 ≤ (s.getV 5).toNat ∧ s.cfg.keyOor = .fault) ∧
      (let s := withKeyOor .mask4 { bench 0x220 [(5, 16)] with keys := ⟨[true], 0⟩ }
       16 ≤ (s.getV 5).toNat ∧ s.cfg.keyOor ≠ .fault ∧
         AddrFits s (s.pc.toNat + if s.keys.value (Config.freeKey (s.getV 5 &&& 0x0F)) then 4 else 2) ∧
         AddrFits s (s.pc.toNat + if s.keys.value (Config.freeKey (s.getV 5 &&& 0x0F)) then 2 else 4)) ∧
      (let s := withKeyOor .draw { bench 0x220 [(5, 255)] with keys := ⟨[false], 0⟩ }
       16 ≤ (s.getV 5).toNat ∧ s.cfg.keyOor ≠ .fault ∧
         AddrFits s (s.pc.toNat + if s.keys.value (Config.freeKey (s.getV 5)) then 4 else 2) ∧
         AddrFits s (s.pc.toNat + if s.keys.value (Config.freeKey (s.getV 5)) then 2 else 4)) := by decide

/-- `CanAdvance`: the highest `pc` that does not carry where a carry faults, and one that wraps. -/
theorem witness_LoadAndAddImmediate : CanAdvance (carrying (bench 0xFFD [])) ∧ CanAdvance (bench 0xFFE []) := by decide

theorem witness_RandomLoad : CanAdvance (carrying (bench 0xFFD [])) ∧ CanAdvance (bench 0xFFE []) := by decide

theorem witness_RandomBytesAreMaskedAndFree :
    (Running State.reset ∧ (∃ t, exec (.rnd 3 0x0F) State.reset = .next t ∧ Running t) ∧ (0x0F : Byte).getLsbD 4 = false) ∧
      CanAdvance State.reset := ⟨⟨rfl, ⟨_, rfl, rfl⟩, by decide⟩, by decide⟩

/-- Each operation, and each setting of `LOGIC_VF`. -/
theorem witness_LogicOperations :
    (let s := bench 0x200 [(1, 0xF0), (2, 0x0C)]
     CanAdvance s ∧ s.v[(2 : Reg)] = 0x0C ∧ s.v[(1 : Reg)] ||| s.v[(2 : Reg)] = 0xFC ∧
       s.v[(1 : Reg)] &&& s.v[(2 : Reg)] = 0x00 ∧ s.v[(1 : Reg)] ^^^ s.v[(2 : Reg)] = 0xFC ∧ s.cfg.logicVf = .anyByte) ∧
      (withLogic .zero State.reset).cfg.logicVf = .zero ∧ CanAdvance (withLogic .zero State.reset) ∧
      (withLogic .untouched State.reset).cfg.logicVf = .untouched ∧ CanAdvance (withLogic .untouched State.reset) := by decide

theorem witness_AnyByteAdmitsZeroAndUntouched :
    Instr.ldReg 15 2 ∈ [Instr.ldReg 15 2, .or 15 2, .and 15 2, .xor 15 2] ∧
      (let s := withLogic .zero (bench 0x200 [(2, 0x33)])
       s.cfg.logicVf ≠ .anyByte ∧ ∃ t, exec (.ldReg 15 2) s = .next t ∧ t.getV 15 = 0) ∧
      (let s := withLogic .untouched (bench 0x200 [(2, 0x33)])
       s.cfg.logicVf ≠ .anyByte ∧ ∃ t, exec (.ldReg 15 2) s = .next t ∧ t.getV 15 = 0x33) ∧
      (let s := withLogic .zero (carrying (bench 0xFFE []))
       s.cfg.logicVf ≠ .anyByte ∧ ∃ t, exec (.ldReg 15 2) s = .next t ∧ t.fault = some .addressCarry) :=
  ⟨by decide, ⟨by decide, _, rfl, rfl⟩, ⟨by decide, _, rfl, rfl⟩, by decide, _, rfl, rfl⟩

theorem witness_FlaggedAluOperations : CanAdvance (carrying (bench 0xFFD [])) ∧ CanAdvance (bench 0xFFE []) := by decide

/-- A7, A13, A24, A17 and A26, whose flags are 1, 0, 0, 1 and 1. -/
theorem witness_AluArithmeticLaws :
    Running State.reset ∧ (2 : Reg) ≠ vF ∧
      (∃ t, exec (.addReg 0 1) (bench 0x200 [(0, 0xC8), (1, 0x64)]) = .next t ∧ Running t) ∧
      (∃ t, exec (.sub 3 4) (bench 0x200 [(3, 0x10), (4, 0x20)]) = .next t ∧ Running t) ∧
      (∃ t, exec (.subn 3 4) (bench 0x200 [(3, 0x20), (4, 0x10)]) = .next t ∧ Running t) ∧
      (∃ t, exec (.shr 2 0) (bench 0x200 [(2, 0x85)]) = .next t ∧ Running t) ∧
      ∃ t, exec (.shl 2 0) (bench 0x200 [(2, 0x85)]) = .next t ∧ Running t :=
  ⟨rfl, by decide, ⟨_, rfl, rfl⟩, ⟨_, rfl, rfl⟩, ⟨_, rfl, rfl⟩, ⟨_, rfl, rfl⟩, _, rfl, rfl⟩

theorem witness_FlagsAreZeroOrOne :
    Instr.sub 15 1 ∈ [Instr.addReg 15 1, .sub 15 1, .shr 15 1, .subn 15 1, .shl 15 1, .drw 15 1 0] ∧
      Running (bench 0x200 [(15, 5), (1, 3)]) ∧
      ∃ t, exec (.sub 15 1) (bench 0x200 [(15, 5), (1, 3)]) = .next t ∧ Running t := ⟨by decide, rfl, _, rfl, rfl⟩

/-- A sum of 0xFFF where a carry faults, and one that wraps (M3). -/
theorem witness_IndexRegisterWrites :
    (let s := { carrying (bench 0xFFD [(2, 1)]) with i := 0xFFE }
     CanAdvance s ∧ AddrFits s (s.i.toNat + s.v[(2 : Reg)].toNat)) ∧
      (let s := { bench 0x200 [(2, 1)] with i := 0xFFF }
       CanAdvance s ∧ AddrFits s (s.i.toNat + s.v[(2 : Reg)].toNat)) := by decide

/-- M9: the highest legal base. -/
theorem witness_StoreDecimalDigits :
    let s := { bench 0x200 [(0, 0xFF)] with i := 0xFFD }
    s.mem.wf = true ∧ s.i.toNat + 2 < 4096 ∧ CanAdvance s := by decide

/-- M16, which wraps, and the highest base that fits where a carry faults. -/
theorem witness_StoreRegisters :
    (let s := { bench 0x200 [] with i := 0xFFD }
     s.mem.wf = true ∧ s.i.toNat + (2 : Reg).val < 4096 ∧ AddrFits s (s.i.toNat + (2 : Reg).val + 1) ∧ CanAdvance s) ∧
      (let s := { carrying (bench 0x200 []) with i := 0xFFC }
       s.i.toNat + (2 : Reg).val < 4096 ∧ AddrFits s (s.i.toNat + (2 : Reg).val + 1) ∧ CanAdvance s) := by decide

/-- M21, which wraps, and the highest base for all sixteen registers that fits where a carry faults. -/
theorem witness_LoadRegisters :
    (let s := { bench 0x200 [] with i := 0xFFF }
     s.i.toNat + (0 : Reg).val < 4096 ∧ AddrFits s (s.i.toNat + (0 : Reg).val + 1) ∧ CanAdvance s) ∧
      (let s := { carrying (bench 0x200 []) with i := 0xFEF }
       s.i.toNat + (15 : Reg).val < 4096 ∧ AddrFits s (s.i.toNat + (15 : Reg).val + 1) ∧ CanAdvance s) := by decide

/-- Three registers stored and loaded, with other values in between. -/
theorem witness_StoreThenLoadGivesRegistersBack :
    let s := { bench 0x200 [(0, 1), (1, 2), (2, 3)] with i := 0xFFD }
    s.mem.wf = true ∧ Running s ∧ ∃ t, exec (.ldMemVx 2) s = .next t ∧ Running t ∧
      ∃ u : State, u.mem = t.mem ∧ u.i = s.i ∧ Running u ∧ u.getV 1 = 9 ∧
        ∃ r, exec (.ldVxMem 2) u = .next r ∧ Running r ∧ r.getV 1 = 2 :=
  ⟨by decide, rfl, _, rfl, rfl, { bench 0x206 [(1, 9)] with i := 0xFFD, mem := [(0xFFD, 1), (0xFFE, 2), (0xFFF, 3)] },
    rfl, rfl, rfl, rfl, _, rfl, rfl, rfl⟩

/-- P4: the two bytes stored are the next word fetched; and `Fx33` at its highest base (M9), with a fetch at
the last `pc` that can be fetched from. -/
theorem witness_StoreIsSeenByFetch :
    (let s := { bench 0x206 [(0, 0x12), (1, 0x0A)] with i := 0x20A }
     s.mem.wf = true ∧ Running s ∧ (0x20A : Addr) ≠ 0xFFF ∧ ∃ t, exec (.ldMemVx 1) s = .next t ∧ Running t ∧
       fetch { t with pc := 0x20A } = .ok [0x12, 0x0A]) ∧
      (let s := { bench 0x206 [(0, 0xFF)] with i := 0xFFD }
       s.mem.wf = true ∧ Running s ∧ (0xFFE : Addr) ≠ 0xFFF ∧ ∃ t, exec (.ldB 0) s = .next t ∧ Running t ∧
         fetch { t with pc := 0xFFE } = .ok [5, 5]) :=
  ⟨⟨by decide, rfl, by decide, _, rfl, rfl, rfl⟩, by decide, rfl, by decide, _, rfl, rfl, rfl⟩

theorem witness_ClearScreen : CanAdvance (lit (bench 0xFFE []) [(31, 63)]) := by decide

/-- No row at the top of memory (B24), and the last byte of memory as a row (B26). -/
theorem witness_DrawSprite :
    (let s := { bench 0x200 [] with i := 0xFFF }; ((0 : Fin 16).val = 0 ∨ s.i.toNat + (0 : Fin 16).val ≤ 4096) ∧ CanAdvance s) ∧
      (let s := { bench 0x200 [] with i := 0xFFF }; (1 : Fin 16).val ≠ 0 ∧ s.i.toNat + (1 : Fin 16).val ≤ 4096 ∧ CanAdvance s) := by
  decide

theorem witness_BlitCollisionLaws :
    (List.replicate 32 (0x80 : Byte)).length ≤ 32 ∧ ∀ row ∈ List.replicate 32 (0 : Byte), row = 0 := by decide

theorem witness_HooksOnlyEmitEvents : CanAdvance (carrying (bench 0xFFD [])) ∧ CanAdvance (bench 0xFFE []) := by decide

end Sys2Proof.Tests
end

section
/-! What a step can do, what an instruction leaves unchanged, and that every step keeps the
invariant: rules derived from the closed form `exec_eq`. -/

namespace Sys2Proof.Machine

variable {s t : State} {i : Instr} {f : Fault}

/-! ## A step (R130 to R133, R343) -/

/-- The word the next step decodes (R62, R91). -/
def fetchedWord (s : State) : Word := wordOf (s.mem.read s.pc.toNat) (s.mem.read (s.pc.toNat + 1))

/-- Only at 0xFFF does the second byte of an instruction lie out of bounds (R131). -/
theorem pc_succ_lt_of_ne_top (h : s.pc ≠ 0xFFF) : s.pc.toNat + 1 < memSize := by
  have hlt := s.pc.isLt
  have hne : s.pc.toNat ≠ 0xFFF := fun h' => h (BitVec.eq_of_toNat_eq h')
  unfold memSize
  omega

theorem step_of_latched (h : s.fault = some f) : step s = .fault f := by
  simp [step, h]

theorem step_of_top (hr : Running s) (hpc : s.pc = 0xFFF) : step s = raise (.outOfBounds memSize) s := by
  simp [step, hr, fetch_error hpc]

theorem step_of_decode_ok (hr : Running s) (hpc : s.pc ≠ 0xFFF) (hd : decode (fetchedWord s) = .ok i) :
    step s = exec i s := by
  unfold fetchedWord at hd
  simp [step, hr, fetch_ok (pc_succ_lt_of_ne_top hpc), decodeBytes, hd]

theorem step_of_decode_error {e : DecodeError} (hr : Running s) (hpc : s.pc ≠ 0xFFF)
    (hd : decode (fetchedWord s) = .error e) : step s = raise (.illegalInstruction s.pc) s := by
  unfold fetchedWord at hd
  simp [step, hr, fetch_ok (pc_succ_lt_of_ne_top hpc), decodeBytes, hd]

/-- All that a step can do: the fetch fails, or the decoding, or the decoded instruction is run. -/
theorem step_cases (h : step s = .next t) :
    Running s ∧
      ((s.pc = 0xFFF ∧ t = { s with fault := some (.outOfBounds memSize) }) ∨
        (s.pc ≠ 0xFFF ∧ (∃ e, decode (fetchedWord s) = .error e) ∧
          t = { s with fault := some (.illegalInstruction s.pc) }) ∨
        (s.pc ≠ 0xFFF ∧ ∃ i, decode (fetchedWord s) = .ok i ∧ exec i s = .next t)) := by
  have hr : Running s := by
    cases hf : s.fault with
    | none => exact hf
    | some f => rw [step_of_latched hf] at h; cases h
  refine ⟨hr, ?_⟩
  by_cases hpc : s.pc = 0xFFF
  · rw [step_of_top hr hpc] at h; cases h
    exact .inl ⟨hpc, rfl⟩
  · cases hd : decode (fetchedWord s) with
    | error e =>
      rw [step_of_decode_error hr hpc hd] at h; cases h
      exact .inr (.inl ⟨hpc, ⟨e, rfl⟩, rfl⟩)
    | ok i => exact .inr (.inr ⟨hpc, i, rfl, step_of_decode_ok hr hpc hd ▸ h⟩)

/-! ## What an instruction leaves unchanged -/

/-- What the latch does not hold and completing keeps, an instruction keeps. -/
theorem exec_keeps {α : Type} (view : State → α) (hlatch : ∀ f, view { s with fault := some f } = view s)
    (hdone : view (completed i s) = view s) (h : exec i s = .next t) : view t = view s := by
  obtain ⟨-, rfl⟩ | ⟨f, -, rfl⟩ := exec_cases h
  · exact hdone
  · exact hlatch f

/-- An instruction that ends without a fault has completed. -/
theorem eq_completed_of_running (h : exec i s = .next t) (ht : Running t) : t = completed i s := by
  obtain ⟨-, rfl⟩ | ⟨f, -, rfl⟩ := exec_cases h
  · rfl
  · cases ht

theorem completed_mem (h : writesMemory i = false) : (completed i s).mem = s.mem := by
  cases i with
  | ldB x => cases h
  | ldMemVx x => cases h
  | _ => simp [completed]

theorem completed_stack (h : usesStack i = false) : (completed i s).stack = s.stack := by
  cases i with
  | ret => cases h
  | call nnn => cases h
  | _ => simp [completed]

theorem completed_i (h : writesIndex i = false) : (completed i s).i = s.i := by
  cases i with
  | ldI nnn => cases h
  | addI x => cases h
  | ldF x => cases h
  | ldMemVx x => cases h
  | ldVxMem x => cases h
  | _ => simp [completed]

/-! ## The invariant -/

theorem Inv.latched (h : Inv s) (hf : FaultExact s f) : Inv { s with fault := some f } where
  params := h.params
  memory := h.memory
  stack := h.stack
  latch g hg := by
    cases hg
    cases f <;> exact hf

theorem faultExact_of_carries {n : Nat} (h : carries s n = some f) : FaultExact s f := by
  unfold carries at h
  split at h
  · cases h
  · next hn =>
    cases h
    cases hc : s.cfg.addrOverflow with
    | wrap12 => exact absurd (.inl hc) hn
    | faultOnCarry => exact hc

theorem stackFull_iff : stackFull s = true ↔ ∃ depth, s.cfg.stackDepth = some depth ∧ depth ≤ s.stack.length := by
  unfold stackFull
  cases s.cfg.stackDepth <;> simp

theorem faultExact_stackOverflow (hs : StackBounded s) (h : stackFull s = true) : FaultExact s .stackOverflow := by
  obtain ⟨depth, hd, hle⟩ := stackFull_iff.1 h
  have hge := hs depth hd
  rw [FaultExact, hd, Nat.le_antisymm hle hge]

theorem faultExact_of_bounds {c : Prop} [Decidable c]
    (h : (if c then some (Fault.outOfBounds memSize) else none) = some f) : FaultExact s f := by
  split at h <;> cases h
  rfl

theorem faultExact_of_key {x : Reg} {n : Nat}
    (h : (if numKeys ≤ (s.getV x).toNat ∧ s.cfg.keyOor = .fault
      then some (Fault.keyOutOfRange (s.getV x)) else carries s n) = some f) : FaultExact s f := by
  split at h
  · next hc => cases h; exact ⟨hc.1, hc.2, x, rfl⟩
  · exact faultExact_of_carries h

/-- Of two checks in order the fault is that of one of them. -/
theorem faultExact_of_or {a b : Option Fault} (ha : a = some f → FaultExact s f)
    (hb : b = some f → FaultExact s f) (h : a.or b = some f) : FaultExact s f :=
  (Option.or_eq_some_iff.1 h).elim ha (hb ·.2)

/-- A fault that is taken is exact, in a state whose stack is bounded (R333, R334). -/
theorem faultOf_exact (hs : StackBounded s) (h : faultOf i s = some f) : FaultExact s f := by
  cases i with
  | jp nnn => cases h
  | ret =>
    simp only [faultOf] at h
    split at h
    · next hnil => cases h; exact hnil
    · cases h
  | call nnn =>
    simp only [faultOf] at h
    split at h
    · next hfull => cases h; exact faultExact_stackOverflow hs hfull
    · exact faultExact_of_carries h
  | skp x => exact faultExact_of_key h
  | sknp x => exact faultExact_of_key h
  | addI x => exact faultExact_of_or faultExact_of_carries faultExact_of_carries h
  | ldB x => exact faultExact_of_or faultExact_of_bounds faultExact_of_carries h
  | drw x y n => exact faultExact_of_or faultExact_of_bounds faultExact_of_carries h
  | ldMemVx x =>
    exact faultExact_of_or (faultExact_of_or faultExact_of_bounds faultExact_of_carries) faultExact_of_carries h
  | ldVxMem x =>
    exact faultExact_of_or (faultExact_of_or faultExact_of_bounds faultExact_of_carries) faultExact_of_carries h
  | _ => exact faultExact_of_carries h

/-- The two stores are in bounds when they complete, so memory stays canonical (R67). -/
theorem completed_memory_wf (hm : s.mem.wf = true) (h : faultOf i s = none) : (completed i s).mem.wf = true := by
  cases hw : writesMemory i with
  | false => rwa [completed_mem hw]
  | true =>
    cases i with
    | ldB x =>
      refine Memory.writeAll_wf hm ?_
      have hb : s.i.toNat + 3 ≤ memSize := by
        by_contra hb; simp [faultOf, show memSize < s.i.toNat + 3 by omega] at h
      exact hb
    | ldMemVx x =>
      refine Memory.writeAll_wf hm ?_
      have hb : s.i.toNat + (x.val + 1) ≤ memSize := by
        by_contra hb; simp [faultOf, show memSize < s.i.toNat + (x.val + 1) by omega] at h
      rwa [lowRegisters_length]
    | _ => cases hw

/-- A call that completes had room, and a return leaves fewer entries (R37). -/
theorem completed_stackBounded (hs : StackBounded s) (h : faultOf i s = none) : StackBounded (completed i s) := by
  intro depth hd
  rw [(completed_fault_cfg i s).2] at hd
  have hle := hs depth hd
  cases hu : usesStack i with
  | false => rwa [completed_stack hu]
  | true =>
    cases i with
    | ret => simp only [completed, List.length_tail]; omega
    | call nnn =>
      have hroom : s.stack.length < depth := by
        by_contra hfull
        simp [faultOf, stackFull_iff.2 ⟨depth, hd, by omega⟩] at h
      exact hroom
    | _ => cases hu

theorem Inv.completed (h : Inv s) (hr : Running s) (hf : faultOf i s = none) : Inv (completed i s) where
  params := by rw [(completed_fault_cfg i s).2]; exact h.params
  memory := completed_memory_wf h.memory hf
  stack := completed_stackBounded h.stack hf
  latch g hg := by rw [(completed_fault_cfg i s).1, hr] at hg; cases hg

theorem Inv.exec (h : Inv s) (hr : Running s) (he : exec i s = .next t) : Inv t := by
  obtain ⟨hf, rfl⟩ | ⟨f, hf, rfl⟩ := exec_cases he
  · exact h.completed hr hf
  · exact h.latched (faultOf_exact h.stack hf)

end Sys2Proof.Machine

namespace Sys2Proof.Machine

/-- Settles O3: a failing fetch or decode latches an exact fault, and an instruction keeps `Inv`
whether it completes or faults. -/
theorem stepKeepsInv : Obligations.StepKeepsInv := by
  intro s t h hstep
  obtain ⟨hr, ⟨-, rfl⟩ | ⟨-, -, rfl⟩ | ⟨-, i, -, he⟩⟩ := step_cases hstep
  · exact h.latched rfl
  · exact h.latched rfl
  · exact h.exec hr he

end Sys2Proof.Machine
end

section
/-! What instructions do not read and do not write: the latch, the display, the registers, memory, the
stack and `i`; how `pc` advances; and that flags are 0 or 1. -/

namespace Sys2Proof.Machine

variable {s : State} {i : Instr}

/-! ## Non-interference: the latch and the display (R33, R39) -/

/-- What a completed `8xy0` to `8xy3` with result `r` leaves. -/
def logicDone (s : State) (x : Reg) (r : Byte) : State := { (s.setV x r).setLogicVf with pc := s.pc + 2 }

theorem completed_ldReg (x y : Reg) : completed (.ldReg x y) s = logicDone s x (s.getV y) := rfl
theorem completed_or (x y : Reg) : completed (.or x y) s = logicDone s x (s.getV x ||| s.getV y) := rfl
theorem completed_and (x y : Reg) : completed (.and x y) s = logicDone s x (s.getV x &&& s.getV y) := rfl
theorem completed_xor (x y : Reg) : completed (.xor x y) s = logicDone s x (s.getV x ^^^ s.getV y) := rfl

theorem setLogicVf_of_fault (s : State) (g : Option Fault) :
    State.setLogicVf { s with fault := g } = { s.setLogicVf with fault := g } := by
  unfold State.setLogicVf
  cases s.cfg.logicVf <;> rfl

theorem logicDone_of_fault (s : State) (g : Option Fault) (x : Reg) (r : Byte) :
    logicDone { s with fault := g } x r = { logicDone s x r with fault := g } :=
  congrArg (fun u : State => { u with pc := s.pc + 2 }) (setLogicVf_of_fault (s.setV x r) g)

theorem faultOf_of_fault (i : Instr) (s : State) (g : Option Fault) :
    faultOf i { s with fault := g } = faultOf i s := by
  cases i <;> rfl

/-- No instruction reads the latch, and none that completes writes it (R33). -/
theorem completed_of_fault (i : Instr) (s : State) (g : Option Fault) :
    completed i { s with fault := g } = { completed i s with fault := g } := by
  cases i with
  | ldReg x y => exact logicDone_of_fault s g x (s.getV y)
  | or x y => exact logicDone_of_fault s g x (s.getV x ||| s.getV y)
  | and x y => exact logicDone_of_fault s g x (s.getV x &&& s.getV y)
  | xor x y => exact logicDone_of_fault s g x (s.getV x ^^^ s.getV y)
  | _ => rfl

theorem setLogicVf_of_fb (s : State) (g : Fb) :
    State.setLogicVf { s with fb := g } = { s.setLogicVf with fb := g } := by
  unfold State.setLogicVf
  cases s.cfg.logicVf <;> rfl

theorem logicDone_of_fb (s : State) (g : Fb) (x : Reg) (r : Byte) :
    logicDone { s with fb := g } x r = { logicDone s x r with fb := g } :=
  congrArg (fun u : State => { u with pc := s.pc + 2 }) (setLogicVf_of_fb (s.setV x r) g)

theorem faultOf_of_fb (i : Instr) (s : State) (g : Fb) : faultOf i { s with fb := g } = faultOf i s := by
  cases i <;> rfl

/-- But for `Dxyn` the old display reaches nothing but the new display (R39). -/
theorem completed_of_fb (g : Fb) (hi : ∀ x y n, i ≠ .drw x y n) :
    { completed i { s with fb := g } with fb := (completed i s).fb } = completed i s := by
  have logic (x : Reg) (r : Byte) :
      { logicDone { s with fb := g } x r with fb := (logicDone s x r).fb } = logicDone s x r := by
    rw [logicDone_of_fb]
  cases i with
  | drw x y n => exact absurd rfl (hi x y n)
  | ldReg x y => exact logic x (s.getV y)
  | or x y => exact logic x (s.getV x ||| s.getV y)
  | and x y => exact logic x (s.getV x &&& s.getV y)
  | xor x y => exact logic x (s.getV x ^^^ s.getV y)
  | _ => rfl

/-! ## Registers -/

theorem logicDone_getV {k x : Reg} {r : Byte} (hx : k ≠ x) (hf : k ≠ vF) :
    (logicDone s x r).getV k = s.getV k := by
  have h := getV_setLogicVf (s.setV x r) k
  rw [if_neg hf, getV_setV_ne s k x r hx] at h
  exact h

theorem getV_setResultAndFlag_ne {k x : Reg} {r b : Byte} (hx : k ≠ x) (hf : k ≠ vF) :
    (s.setResultAndFlag x r b).getV k = s.getV k := by
  rw [getV_setResultAndFlag, if_neg hf, if_neg hx]

/-- A register above those loaded keeps its value (R235). -/
theorem getElem_loadedRegisters_of_length_le {v : Vector Byte 16} {bytes : List Byte} {k : Reg}
    (h : bytes.length ≤ k.val) : (loadedRegisters v bytes)[k] = v[k] := by
  rw [getElem_loadedRegisters, List.getD_eq_default _ _ h]

@[simp] theorem bytesAt_length (s : State) (base n : Nat) : (bytesAt s base n).length = n := by
  simp [bytesAt]

/-- A completed instruction keeps every register it does not write (R22). -/
theorem completed_getV {k : Reg} (h : writesReg i k = false) : (completed i s).getV k = s.getV k := by
  have logic (x : Reg) (r : Byte) (hk : (k == x || k == vF) = false) :
      (logicDone s x r).getV k = s.getV k := by
    simp only [Bool.or_eq_false_iff, beq_eq_false_iff_ne] at hk
    exact logicDone_getV hk.1 hk.2
  have flag (x : Reg) (r b : Byte) (hk : (k == x || k == vF) = false) :
      (s.setResultAndFlag x r b).getV k = s.getV k := by
    simp only [Bool.or_eq_false_iff, beq_eq_false_iff_ne] at hk
    exact getV_setResultAndFlag_ne hk.1 hk.2
  have ne {x : Reg} (hk : (k == x) = false) : k ≠ x := beq_eq_false_iff_ne.1 hk
  cases i with
  | ldImm x nn => exact getV_setV_ne s k x _ (ne h)
  | addImm x nn => exact getV_setV_ne s k x _ (ne h)
  | rnd x nn => exact getV_setV_ne (randomTaken s) k x _ (ne h)
  | drw x y n => exact getV_setV_ne s k vF _ (ne h)
  | ldReg x y => exact logic x (s.getV y) h
  | or x y => exact logic x (s.getV x ||| s.getV y) h
  | and x y => exact logic x (s.getV x &&& s.getV y) h
  | xor x y => exact logic x (s.getV x ^^^ s.getV y) h
  | addReg x y => exact flag x _ _ h
  | sub x y => exact flag x _ _ h
  | shr x y => exact flag x _ _ h
  | subn x y => exact flag x _ _ h
  | shl x y => exact flag x _ _ h
  | ldVxMem x =>
    have hk : x < k := by simpa [writesReg] using h
    exact getElem_loadedRegisters_of_length_le (by rw [bytesAt_length]; exact hk)
  | _ => rfl

/-! ## The program counter -/

/-- A skip goes over no instruction or over one (R170). -/
theorem plus_two_or_four (a : Addr) (c : Bool) :
    a + (if c then 4 else 2) = a + 2 ∨ a + (if c then 4 else 2) = a + 4 := by
  cases c
  · exact .inl rfl
  · exact .inr rfl

/-! ## Flags -/

/-- A flag value (R28). -/
def IsFlag (b : Byte) : Prop := b = 0 ∨ b = 1

theorem isFlag_ite (c : Prop) [Decidable c] : IsFlag (if c then 1 else 0) := by
  split
  · exact .inr rfl
  · exact .inl rfl

theorem isFlag_shiftedOutLow (a : Byte) : IsFlag (shiftedOutLow a) := shiftedOutLow_eq a ▸ isFlag_ite _
theorem isFlag_shiftedOutHigh (a : Byte) : IsFlag (shiftedOutHigh a) := shiftedOutHigh_eq a ▸ isFlag_ite _

/-- The flag is written last, so that it stands in `VF` whatever the destination (R30, R201). -/
theorem getV_setResultAndFlag_vF (s : State) (x : Reg) (r b : Byte) : (s.setResultAndFlag x r b).getV vF = b := by
  rw [getV_setResultAndFlag, if_pos rfl]

end Sys2Proof.Machine

namespace Sys2Proof.Machine

/-- Settles O18: the checks and the completed state commute with the latch (`faultOf_of_fault`, `completed_of_fault`). -/
theorem latchIsInvisibleToInstructions : Obligations.LatchIsInvisibleToInstructions := by
  intro i s t g hr h
  rw [exec_eq, faultOf_of_fault, completed_of_fault]
  obtain ⟨hf, rfl⟩ | ⟨f, hf, rfl⟩ := exec_cases h
  · have hnone : (completed i s).fault = none := (completed_fault_cfg i s).1.trans hr
    simp [hf, hnone]
  · simp [hf]

/-- Settles O22: the closed form writes `pc` last, and a skip by `plus_two_or_four`. -/
theorem completedInstructionsAdvancePc : Obligations.CompletedInstructionsAdvancePc := by
  intro i s t _ h ht
  obtain rfl := eq_completed_of_running h ht
  cases i with
  | ret => trivial
  | jp nnn => trivial
  | call nnn => trivial
  | jpV0 nnn => trivial
  | seImm x nn => exact plus_two_or_four s.pc _
  | sneImm x nn => exact plus_two_or_four s.pc _
  | seReg x y => exact plus_two_or_four s.pc _
  | sneReg x y => exact plus_two_or_four s.pc _
  | skp x => exact plus_two_or_four s.pc _
  | sknp x => exact plus_two_or_four s.pc _
  | _ => rfl

/-- Settles O25: a frame of the completed state, which a fault keeps as well. -/
theorem onlyStoresWriteMemory : Obligations.OnlyStoresWriteMemory := by
  intro i s t hi h a
  rw [exec_keeps State.mem (fun _ => rfl) (completed_mem hi) h]

/-- Settles O27: the frames `completed_stack` and `completed_i`. -/
theorem onlyNamedInstructionsWriteStackAndIndex : Obligations.OnlyNamedInstructionsWriteStackAndIndex := by
  intro i s t h
  exact ⟨fun hi => exec_keeps State.stack (fun _ => rfl) (completed_stack hi) h,
    fun hi => exec_keeps State.i (fun _ => rfl) (completed_i hi) h⟩

/-- Settles O28: the frame `completed_getV`. -/
theorem onlyDestinationRegistersChange : Obligations.OnlyDestinationRegistersChange := by
  intro i s t k hi h
  exact exec_keeps (fun u => u.getV k) (fun _ => rfl) (completed_getV hi) h

/-- Settles O29: whether an instruction faults does not depend on the display, and a completed one
carries it nowhere else; for `Dxyn` the one register written is `VF`. -/
theorem displayIsIsolated : Obligations.DisplayIsIsolated := by
  refine ⟨fun i s t g hi h => ⟨_, exec_eq i _, ?_⟩, fun x y n s t g h => ⟨_, exec_eq _ _, ?_, fun k hk => ?_⟩⟩
  all_goals rw [faultOf_of_fb]
  · obtain ⟨hf, rfl⟩ | ⟨f, hf, rfl⟩ := exec_cases h
    · rw [hf]
      exact completed_of_fb g hi
    · rw [hf]; rfl
  · obtain ⟨hf, rfl⟩ | ⟨f, hf, rfl⟩ := exec_cases h
    · rw [hf]; rfl
    · rw [hf]; rfl
  · have hw : writesReg (.drw x y n) k = false := beq_eq_false_iff_ne.2 hk
    obtain ⟨hf, rfl⟩ | ⟨f, hf, rfl⟩ := exec_cases h
    · rw [hf, settle_none, completed_getV hw, completed_getV hw]; rfl
    · rw [hf]; rfl

/-- Settles O46: the flag is written last, and each flag computation gives 0 or 1. -/
theorem flagsAreZeroOrOne : Obligations.FlagsAreZeroOrOne := by
  intro s t x y n i hi _ h ht
  obtain rfl := eq_completed_of_running h ht
  have flag (r b : Byte) (hb : IsFlag b) : IsFlag ((s.setResultAndFlag x r b).getV vF) := by
    rwa [getV_setResultAndFlag_vF]
  simp only [List.mem_cons, List.not_mem_nil, or_false] at hi
  obtain rfl | rfl | rfl | rfl | rfl | rfl := hi
  · exact flag _ _ (isFlag_ite _)
  · exact flag _ _ (isFlag_ite _)
  · exact flag _ _ (isFlag_shiftedOutLow _)
  · exact flag _ _ (isFlag_ite _)
  · exact flag _ _ (isFlag_shiftedOutHigh _)
  · have hd := getV_setV_self s vF (flagByte
      (blit (bytesAt s (indexBase s) n.val) (s.getV x) (s.getV y) s.fb).collision)
    exact hd ▸ isFlag_ite _

end Sys2Proof.Machine
end

section
/-! The checks of the instructions that make several, the carries, the sprite in closed form, the index
register, the reset state and the sticky latch. -/

namespace Sys2Proof.Machine

variable {s : State} {i : Instr} {f : Fault} {m n : Nat}

/-! ## The faults of the instructions with several checks (R337) -/

theorem exec_of_fault (h : faultOf i s = some f) : exec i s = .next { s with fault := some f } := by
  rw [exec_eq, h]; rfl

/-- An instruction whose one check is a carry faults where it carries. -/
theorem exec_of_carry (hi : faultOf i s = carries s n) (h : ¬AddrFits s n) :
    exec i s = .next { s with fault := some .addressCarry } :=
  exec_of_fault (hi.trans (carries_not_fits h))

theorem carries_or_fits (hm : AddrFits s m) (hn : AddrFits s n) : (carries s m).or (carries s n) = none := by
  rw [carries_fits hm, carries_fits hn]; rfl

theorem carries_or_not_fits (h : ¬(AddrFits s m ∧ AddrFits s n)) :
    (carries s m).or (carries s n) = some .addressCarry := by
  by_cases hm : AddrFits s m
  · rw [carries_fits hm, carries_not_fits fun hn => h ⟨hm, hn⟩]; rfl
  · rw [carries_not_fits hm]; rfl

theorem addrFits_mono (hle : m ≤ n) (h : AddrFits s n) : AddrFits s m :=
  h.imp_right (Nat.lt_of_le_of_lt hle)

/-- Where `pc + 2` carries a skip faults, whether it skips or not. -/
theorem not_addrFits_skip (h : ¬CanAdvance s) (c : Bool) : ¬AddrFits s (s.pc.toNat + if c then 4 else 2) :=
  mt (addrFits_mono (by cases c <;> simp)) h

theorem faultOf_drw_of_inBounds {x y : Reg} {k : Fin 16} (h : k.val = 0 ∨ s.i.toNat + k.val ≤ memSize) :
    faultOf (.drw x y k) s = carries s (s.pc.toNat + 2) := by
  simp only [faultOf]
  rw [if_neg (by omega), Option.none_or]

theorem faultOf_ldB_of_inBounds {x : Reg} (h : s.i.toNat + 2 < memSize) :
    faultOf (.ldB x) s = carries s (s.pc.toNat + 2) := by
  simp only [faultOf]
  rw [if_neg (by omega), Option.none_or]

/-- `Fx55` and `Fx65` make the same checks (R234, R235). -/
theorem faultOf_ldMemVx_of_inBounds {x : Reg} (h : s.i.toNat + x.val < memSize) :
    faultOf (.ldMemVx x) s = (carries s (s.i.toNat + x.val + 1)).or (carries s (s.pc.toNat + 2)) := by
  simp only [faultOf]
  rw [if_neg (by omega), Option.none_or]; rfl

theorem faultOf_ldVxMem (x : Reg) : faultOf (.ldVxMem x) s = faultOf (.ldMemVx x) s := rfl

theorem faultOf_call_of_room {nnn : Addr}
    (h : ∀ depth, s.cfg.stackDepth = some depth → s.stack.length < depth) :
    faultOf (.call nnn) s = carries s (s.pc.toNat + 2) := by
  have hroom : ¬stackFull s = true := fun hfull => by
    obtain ⟨depth, hd, hle⟩ := stackFull_iff.1 hfull
    exact absurd (h depth hd) (Nat.not_lt.2 hle)
  simp only [faultOf]
  rw [if_neg hroom]

/-- The key query of `V[x]` does not fault (R177). -/
def KeyAnswered (s : State) (x : Reg) : Prop := (s.getV x).toNat < numKeys ∨ s.cfg.keyOor ≠ .fault

theorem not_keyFault {x : Reg} (h : KeyAnswered s x) :
    ¬(numKeys ≤ (s.getV x).toNat ∧ s.cfg.keyOor = .fault) := fun ⟨hge, hf⟩ =>
  h.elim (Nat.not_lt.2 hge) (absurd hf)

theorem faultOf_skp_of_answered {x : Reg} (h : KeyAnswered s x) :
    faultOf (.skp x) s = carries s (s.pc.toNat + if keyPressed s (askedKey s x) then 4 else 2) := by
  simp only [faultOf]
  rw [if_neg (not_keyFault h)]

theorem faultOf_sknp_of_answered {x : Reg} (h : KeyAnswered s x) :
    faultOf (.sknp x) s = carries s (s.pc.toNat + if !keyPressed s (askedKey s x) then 4 else 2) := by
  simp only [faultOf]
  rw [if_neg (not_keyFault h)]

theorem askedKey_of_answered {x : Reg} (h : KeyAnswered s x) :
    askedKey s x =
      if numKeys ≤ (s.getV x).toNat ∧ s.cfg.keyOor = .mask4 then s.getV x &&& 0x0F else s.getV x := by
  unfold askedKey
  by_cases hlt : (s.getV x).toNat < numKeys
  · rw [if_pos (.inl hlt), if_neg fun hm => absurd hlt (Nat.not_lt.2 hm.1)]
  · have hge := Nat.not_lt.1 hlt
    cases hk : s.cfg.keyOor with
    | fault => exact absurd hk (h.resolve_left hlt)
    | draw => simp
    | mask4 => simp [hge]

/-! ## The sprite in closed form (R262 to R265) -/

theorem bytesAt_eq_map_range (s : State) (base n : Nat) :
    bytesAt s base n = (List.range n).map fun k => s.mem.read (base + k) := by
  apply List.ext_getElem <;> simp [bytesAt]

theorem pixel_blit {rows : List Byte} (h : rows.length ≤ 32) (ox oy : Byte) (fb : Fb) (r : Fin 32) (c : Fin 64) :
    pixel (blit rows ox oy fb).fb r c = (pixel fb r c ^^ spriteAt rows ox oy r c) := by
  rw [blit, pixel_blitRows ox oy 0 rows _ (by omega)]
  simp only [Nat.zero_le, decide_true, Bool.true_and]
  rfl

theorem collision_blit {rows : List Byte} (h : rows.length ≤ 32) (ox oy : Byte) (fb : Fb) :
    (blit rows ox oy fb).collision = true ↔
      ∃ r c, pixel fb r c = true ∧ spriteAt rows ox oy r c = true := by
  rw [blit, collision_blitRows ox oy 0 rows _ (by omega)]
  simp only [Bool.false_eq_true, false_or, Nat.zero_le, true_and]
  rfl

theorem flagByte_of_iff {c : Bool} {p : Prop} [Decidable p] (h : c = true ↔ p) :
    flagByte c = if p then 1 else 0 := by
  simp only [flagByte, h]

end Sys2Proof.Machine

namespace Sys2Proof.Machine

/-- Settles O21: each instruction's earlier checks pass, and the carry is its first failing one. -/
theorem onCarryTheFaultIsTaken : Obligations.OnCarryTheFaultIsTaken := by
  intro s carried
  have skips {i : Instr} {c : Bool} (hi : faultOf i s = carries s (s.pc.toNat + if c then 4 else 2))
      (hc : c = true) (h : ¬AddrFits s (s.pc.toNat + 4)) : exec i s = carried :=
    exec_of_carry hi (by rwa [hc])
  refine ⟨fun h => ?advance, fun x nn heq => skips rfl (beq_iff_eq.2 heq), fun x nn hne => skips rfl (bne_iff_ne.2 hne),
    fun x y heq => skips rfl (beq_iff_eq.2 heq), fun x y hne => skips rfl (bne_iff_ne.2 hne), fun x hk hc => ?keys,
    fun nnn hc => exec_of_carry rfl hc, fun x hc => exec_of_fault (carries_or_not_fits fun hf => hc hf.1),
    fun x hb hc => ?mem⟩
  case advance =>
    have on {i : Instr} (hi : faultOf i s = carries s (s.pc.toNat + 2)) : exec i s = carried := exec_of_carry hi h
    have skip (c : Bool) {i : Instr} (hi : faultOf i s = carries s (s.pc.toNat + if c then 4 else 2)) :
        exec i s = carried := exec_of_carry hi (not_addrFits_skip h c)
    have addI (x : Reg) : exec (.addI x) s = carried := exec_of_fault (carries_or_not_fits fun hc => h hc.2)
    exact ⟨fun x y nn nnn => ⟨on rfl, skip _ rfl, skip _ rfl, skip _ rfl, skip _ rfl, on rfl, on rfl, on rfl, on rfl,
        on rfl, on rfl, on rfl, on rfl, on rfl, on rfl, on rfl, on rfl, on rfl, addI x, on rfl, on rfl, on rfl, on rfl,
        on rfl⟩,
      fun x y n hb => on (faultOf_drw_of_inBounds hb), fun x hb => on (faultOf_ldB_of_inBounds hb),
      fun nnn hroom => on (faultOf_call_of_room hroom),
      fun x hk => ⟨skip _ (faultOf_skp_of_answered hk), skip _ (faultOf_sknp_of_answered hk)⟩⟩
  case keys =>
    have hasked := askedKey_of_answered hk
    exact ⟨fun hp => skips (faultOf_skp_of_answered hk) (hasked ▸ hp) hc,
      fun hp => skips (faultOf_sknp_of_answered hk) (hasked ▸ congrArg not hp) hc⟩
  case mem =>
    have hf := (faultOf_ldMemVx_of_inBounds hb).trans (carries_or_not_fits hc)
    exact ⟨exec_of_fault hf, exec_of_fault ((faultOf_ldVxMem x).trans hf)⟩

/-- Settles O54: the rows are those at `i`, and the blit is the closed form of `pixel_blit` and
`collision_blit`. -/
theorem drawSprite : Obligations.DrawSprite := by
  intro s x y n hb hadv rows bit
  have hrows : bytesAt s (indexBase s) n.val = rows := bytesAt_eq_map_range s _ _
  have hlen : rows.length ≤ 32 := by simp only [rows, List.length_map, List.length_range]; omega
  have hflag := flagByte_of_iff (collision_blit hlen (s.getV x) (s.getV y) s.fb)
  refine ⟨_, exec_of_no_fault ((faultOf_drw_of_inBounds hb).trans (carries_fits hadv)), ?_, fun r c => ?_⟩
  · simp only [completed, State.setV, hrows, hflag]
    rfl
  · simp only [completed, hrows]
    exact pixel_blit hlen _ _ _ r c

/-- Settles O1: field by field, and the word 0x0000 is in no row of the table. -/
theorem resetStateValues : Obligations.ResetStateValues := by
  refine ⟨by decide, rfl, rfl, rfl, fun _ => rfl, pixel_clear, rfl, rfl, rfl, rfl, rfl, rfl, ?_⟩
  exact step_of_decode_error rfl (by decide) (show decode 0 = .error .family0 by decide)

/-- Settles O2: memory and stack are empty and the latch is clear. -/
theorem resetStatesSatisfyInv : Obligations.ResetStatesSatisfyInv := fun _ hp =>
  { params := hp
    memory := rfl
    stack := fun _ _ => Nat.zero_le _
    latch := fun _ hf => nomatch hf }

/-- Settles O13: the fetch is in bounds, and the step is that of `step_of_decode_ok`. -/
theorem stepRunsDecodedInstruction : Obligations.StepRunsDecodedInstruction :=
  fun _ _ hr hpc hd => step_of_decode_ok hr hpc hd

/-- Settles O16: the host reports the fault when it is latched, and a latched machine takes no step. -/
theorem faultsAreSticky : Obligations.FaultsAreSticky := by
  refine ⟨fun s t f _ hstep hf => ⟨?_, ?_⟩, fun s f k hf => ?_⟩
  · simp [hostStep, hstep, hf]
  · simp [hostStep, step_of_latched hf]
  · have hcore : core.step s = .fault f := step_of_latched hf
    simp [Host.Core.run, hcore]

/-- Settles O47: the closed form, where no check fails. -/
theorem indexRegisterWrites : Obligations.IndexRegisterWrites := by
  intro s x nnn hadv
  exact ⟨exec_of_no_fault (carries_fits hadv), fun hfit => exec_of_no_fault (carries_or_fits hfit hadv),
    exec_of_no_fault (carries_fits hadv)⟩

end Sys2Proof.Machine
end

section
/-! Accesses that leave the memory, what the host's `Load` does, and what memory and the fetch read after
the two stores. -/

namespace Sys2Proof.Machine

variable {s t : State} {i : Instr} {f : Fault} {x y : Reg} {a offset : Nat} {v : Byte} {bytes : List Byte}

/-! ## A byte (R60) -/

theorem memWrite_ok (h : a < memSize) : memWrite s a v = .ok { s with mem := s.mem.write a v } := if_pos h

theorem memWrite_error (h : memSize ≤ a) : memWrite s a v = .error (.outOfBounds a) :=
  if_neg (Nat.not_lt.2 h)

/-! ## `Load` (R61, R303) -/

theorem hostLoad_of_fits (h : offset + bytes.length ≤ memSize) :
    hostLoad offset bytes s = ({ s with mem := s.mem.writeAll offset bytes }, .ok) := by
  simp [hostLoad, bulkWrite, Nat.not_lt.2 h]

theorem hostLoad_of_exceeds (h : memSize < offset + bytes.length) :
    hostLoad offset bytes s = (s, .outOfBounds) := by
  simp [hostLoad, bulkWrite, h]

/-! ## The invariant between two steps -/

/-- Nothing but canonicity is asked of memory: `pc`, the stack, the registers and the latch stay. -/
theorem Inv.withMem {m : Memory} (h : Inv s) (hm : m.wf = true) : Inv { s with mem := m } where
  params := h.params
  memory := hm
  stack := h.stack
  latch f hf := by
    have hex := h.latch f hf
    cases f <;> exact hex

theorem Inv.hostReset (h : Inv s) : Inv (hostReset s) where
  params := h.params
  memory := rfl
  stack _ _ := Nat.zero_le _
  latch _ hf := nomatch hf

theorem Inv.hostLoad (h : Inv s) (offset : Nat) (bytes : List Byte) : Inv (hostLoad offset bytes s).1 := by
  by_cases hb : offset + bytes.length ≤ memSize
  · rw [hostLoad_of_fits hb]
    exact h.withMem (Memory.writeAll_wf h.memory hb)
  · rwa [hostLoad_of_exceeds (Nat.not_le.1 hb)]

/-- The host's `Step` leaves the state of a step, or, where there is none, the state it found. -/
theorem hostStep_fst_cases (s : State) : step s = .next (hostStep s).1 ∨ (hostStep s).1 = s := by
  unfold hostStep
  cases step s with
  | next t => left; dsimp only; split <;> rfl
  | fault f => exact .inr rfl
  | refused r => exact .inr rfl

theorem Inv.hostStep (h : Inv s) : Inv (hostStep s).1 := by
  obtain hnext | hsame := hostStep_fst_cases s
  · exact stepKeepsInv s _ h hnext
  · rwa [hsame]

/-! ## Faults (R67, R334, R340) -/

/-- An instruction that ends without a fault passed its checks. -/
theorem faultOf_eq_none_of_running (h : exec i s = .next t) (ht : Running t) : faultOf i s = none := by
  obtain ⟨hf, -⟩ | ⟨f, -, rfl⟩ := exec_cases h
  · exact hf
  · cases ht

/-- An instruction that faults is undone, its stores too (R67). -/
theorem eq_latched_of_exec_fault (hr : Running s) (h : exec i s = .next t) (hf : t.fault = some f) :
    t = { s with fault := some f } := by
  obtain ⟨-, rfl⟩ | ⟨g, -, rfl⟩ := exec_cases h
  · rw [(completed_fault_cfg i s).1, hr] at hf
    cases hf
  · cases hf; rfl

theorem faultOf_drw_of_outOfBounds {n : Fin 16} (hn : 1 ≤ n.val) (h : memSize < s.i.toNat + n.val) :
    faultOf (.drw x y n) s = some (.outOfBounds memSize) := by
  simp only [faultOf]
  rw [if_pos ⟨Nat.ne_of_gt hn, h⟩, Option.some_or]

theorem faultOf_ldB_of_outOfBounds (h : memSize ≤ s.i.toNat + 2) :
    faultOf (.ldB x) s = some (.outOfBounds memSize) := by
  simp only [faultOf]
  rw [if_pos (by omega), Option.some_or]

theorem faultOf_ldMemVx_of_outOfBounds (h : memSize ≤ s.i.toNat + x.val) :
    faultOf (.ldMemVx x) s = some (.outOfBounds memSize) := by
  simp only [faultOf]
  rw [if_pos (by omega), Option.some_or, Option.some_or]

theorem ldB_inBounds_of_no_fault (h : faultOf (.ldB x) s = none) : s.i.toNat + 2 < memSize := by
  by_contra hb
  rw [faultOf_ldB_of_outOfBounds (Nat.not_lt.1 hb)] at h
  cases h

theorem ldMemVx_inBounds_of_no_fault (h : faultOf (.ldMemVx x) s = none) : s.i.toNat + x.val < memSize := by
  by_contra hb
  rw [faultOf_ldMemVx_of_outOfBounds (Nat.not_lt.1 hb)] at h
  cases h

/-! ## Memory after the two stores (R233, R234) -/

theorem lowRegisters_getD_eq_toList {k : Nat} (h : k ≤ x.val) :
    (lowRegisters s x).getD k 0 = s.v.toList.getD k 0 := by
  rw [lowRegisters, List.getD_eq_getElem?_getD, List.getElem?_take_of_lt (Nat.lt_succ_of_le h),
    ← List.getD_eq_getElem?_getD]

theorem read_completed_ldMemVx (hm : s.mem.wf = true) (hb : s.i.toNat + x.val < memSize) (a : Nat) :
    (completed (.ldMemVx x) s).mem.read a =
      if s.i.toNat ≤ a ∧ a ≤ s.i.toNat + x.val then s.v.toList.getD (a - s.i.toNat) 0 else s.mem.read a := by
  have hfit : s.i.toNat + (lowRegisters s x).length ≤ memSize := by rw [lowRegisters_length]; omega
  refine (Memory.read_writeAll (a := a) hm hfit).trans ?_
  rw [lowRegisters_length]
  by_cases ha : s.i.toNat ≤ a ∧ a ≤ s.i.toNat + x.val
  · rw [if_pos (by omega), if_pos ha, lowRegisters_getD_eq_toList (by omega)]
  · rw [if_neg (by omega), if_neg ha]

theorem read_completed_ldB (hm : s.mem.wf = true) (hb : s.i.toNat + 2 < memSize) (a : Nat) :
    (completed (.ldB x) s).mem.read a =
      if a = s.i.toNat then BitVec.ofNat 8 ((s.getV x).toNat / 100)
      else if a = s.i.toNat + 1 then BitVec.ofNat 8 ((s.getV x).toNat / 10 % 10)
      else if a = s.i.toNat + 2 then BitVec.ofNat 8 ((s.getV x).toNat % 10)
      else s.mem.read a := by
  refine (Memory.read_writeAll (a := a) (bytes := decimalDigits (s.getV x)) hm hb).trans ?_
  rw [decimalDigits_length]
  by_cases h0 : a = s.i.toNat
  · simp [h0, decimalDigits]
  by_cases h1 : a = s.i.toNat + 1
  · simp [h1, decimalDigits]
  by_cases h2 : a = s.i.toNat + 2
  · simp [h2, decimalDigits]
  rw [if_neg (by omega), if_neg h0, if_neg h1, if_neg h2]

/-! ## The fetch (R62) -/

theorem fetch_ok_of_ne_top (h : s.pc ≠ 0xFFF) :
    fetch s = .ok [s.mem.read s.pc.toNat, s.mem.read (s.pc.toNat + 1)] :=
  fetch_ok (pc_succ_lt_of_ne_top h)

theorem toNat_wordOf (hi lo : Byte) : (wordOf hi lo).toNat = hi.toNat * 256 + lo.toNat := by
  rw [wordOf, BitVec.toNat_append, ← Nat.shiftLeft_add_eq_or_of_lt lo.isLt, Nat.shiftLeft_eq]

end Sys2Proof.Machine

namespace Sys2Proof.Machine

/-- Settles O4: `Reset` gives a reset state, `Load` writes a canonical memory or nothing, and `Step` is a
step (`stepKeepsInv`) or nothing. -/
theorem hostTransactionsKeepInv : Obligations.HostTransactionsKeepInv := by
  intro s h
  refine ⟨⟨h.hostReset, rfl, rfl, rfl⟩, fun offset bytes => ⟨h.hostLoad offset bytes, fun hrej => ?_⟩,
    h.hostStep⟩
  by_cases hb : offset + bytes.length ≤ memSize
  · rw [hostLoad_of_fits hb] at hrej
    cases hrej
  · rw [hostLoad_of_exceeds (Nat.not_le.1 hb)]

/-- Settles O17: fetch and decode faults change the latch alone, and an instruction's by
`eq_latched_of_exec_fault`. -/
theorem faultChangesOnlyTheLatch : Obligations.FaultChangesOnlyTheLatch := by
  intro s t f hr hstep hf
  obtain ⟨-, ⟨-, rfl⟩ | ⟨-, -, rfl⟩ | ⟨-, i, -, he⟩⟩ := step_cases hstep
  · cases hf; rfl
  · cases hf; rfl
  · exact eq_latched_of_exec_fault hr he hf

/-- Settles O20: the bounds check is the first of each instruction that accesses memory. -/
theorem outOfBoundsAccessesFault : Obligations.OutOfBoundsAccessesFault := by
  intro s
  refine ⟨step_of_top, fun x y n hn hb => exec_of_fault (faultOf_drw_of_outOfBounds hn hb),
    fun x hb => exec_of_fault (faultOf_ldB_of_outOfBounds hb), fun x hb => ?_⟩
  have hf := faultOf_ldMemVx_of_outOfBounds hb
  exact ⟨exec_of_fault hf, exec_of_fault ((faultOf_ldVxMem x).trans hf)⟩

/-- Settles O23: the laws of one write to a canonical memory. -/
theorem memoryReadAfterWrite : Obligations.MemoryReadAfterWrite := by
  intro s a v hm
  exact ⟨fun ha => ⟨memRead_ok ha, _, memWrite_ok ha, rfl, Memory.write_wf hm ha, fun b => Memory.read_write hm⟩,
    fun ha => ⟨memRead_error ha, memWrite_error ha⟩⟩

/-- Settles O24: the laws of consecutive writes to a canonical memory. -/
theorem loadCopiesOrRejects : Obligations.LoadCopiesOrRejects := by
  intro s offset bytes hm
  exact ⟨hostLoad_of_exceeds, fun hb =>
    ⟨_, hostLoad_of_fits hb, rfl, Memory.writeAll_wf hm hb, fun a => Memory.read_writeAll hm hb⟩⟩

/-- Settles O52: the fetch reads two bytes of the memory that the completed store left. -/
theorem storeIsSeenByFetch : Obligations.StoreIsSeenByFetch := by
  intro s t x pc hm _ ht hpc
  have hfetch : fetch { t with pc := pc } = .ok [t.mem.read pc.toNat, t.mem.read (pc.toNat + 1)] :=
    fetch_ok_of_ne_top hpc
  refine ⟨fun h => ?registers, fun h => ?digits⟩
  case registers =>
    have hb := ldMemVx_inBounds_of_no_fault (faultOf_eq_none_of_running h ht)
    rw [hfetch, eq_completed_of_running h ht, read_completed_ldMemVx hm hb, read_completed_ldMemVx hm hb]
  case digits =>
    have hb := ldB_inBounds_of_no_fault (faultOf_eq_none_of_running h ht)
    rw [hfetch, eq_completed_of_running h ht, read_completed_ldB hm hb, read_completed_ldB hm hb]

/-- Settles O12: the fetch is in bounds everywhere but at the top, and a word appends its bytes. -/
theorem fetchIsBigEndian : Obligations.FetchIsBigEndian :=
  fun _ => ⟨fetch_ok_of_ne_top, fetch_error, toNat_wordOf⟩

end Sys2Proof.Machine
end

section
/-! The encoding (R90 to R121): decoder and encoder undo each other, the rows of the opcode table are disjoint
and cover what decodes, and the words that are illegal. -/

namespace Sys2Proof

variable {w : Word} {f : Fields} {i : Instr} {e : DecodeError} {op n : BitVec 4} {nn : Byte}

/-! ## A word packed again from its own fields (R91, R92) -/

theorem packN_fieldsOf (w : Word) : packN (fieldsOf w).op (fieldsOf w).nnn = w := (word_eq_nnn w).symm

theorem packX_fieldsOf (w : Word) : packX (fieldsOf w).op (regOf (fieldsOf w).x) (fieldsOf w).nn = w := by
  rw [packX, nibOf_regOf]; exact (word_eq_xnn w).symm

theorem packXY_fieldsOf (w : Word) :
    packXY (fieldsOf w).op (regOf (fieldsOf w).x) (regOf (fieldsOf w).y) (fieldsOf w).n = w := by
  rw [packXY, nibOf_regOf, nibOf_regOf]; exact (word_eq_xyn w).symm

theorem packN_of_op (hop : (fieldsOf w).op = op) : packN op (fieldsOf w).nnn = w := hop ▸ packN_fieldsOf w

theorem packX_of_op (hop : (fieldsOf w).op = op) : packX op (regOf (fieldsOf w).x) (fieldsOf w).nn = w :=
  hop ▸ packX_fieldsOf w

theorem packX_of_op_nn (h : (fieldsOf w).op = op ∧ (fieldsOf w).nn = nn) :
    packX op (regOf (fieldsOf w).x) nn = w :=
  h.2 ▸ packX_of_op h.1

theorem packXY_of_op (hop : (fieldsOf w).op = op) :
    packXY op (regOf (fieldsOf w).x) (regOf (fieldsOf w).y) (fieldsOf w).n = w :=
  hop ▸ packXY_fieldsOf w

theorem packXY_of_op_n (h : (fieldsOf w).op = op ∧ (fieldsOf w).n = n) :
    packXY op (regOf (fieldsOf w).x) (regOf (fieldsOf w).y) n = w :=
  h.2 ▸ packXY_of_op h.1

/-- The count of `Dxyn` is held as a number, and packed as a nibble (R93). -/
theorem encode_drw_of_op (hop : (fieldsOf w).op = 0xD) :
    encode (.drw (regOf (fieldsOf w).x) (regOf (fieldsOf w).y) (regOf (fieldsOf w).n)) = w := by
  rw [encode, nibOf_regOf, packXY_of_op hop]

/-! ## The fields as numbers, and their overlap (R92) -/

theorem fieldsOf_op_toNat (w : Word) : (fieldsOf w).op.toNat = w.toNat / 4096 := by
  simp [fieldsOf, Nat.shiftRight_eq_div_pow]; omega

theorem fieldsOf_x_toNat (w : Word) : (fieldsOf w).x.toNat = w.toNat / 256 % 16 := by
  simp [fieldsOf, Nat.shiftRight_eq_div_pow]

theorem fieldsOf_y_toNat (w : Word) : (fieldsOf w).y.toNat = w.toNat / 16 % 16 := by
  simp [fieldsOf, Nat.shiftRight_eq_div_pow]

theorem fieldsOf_n_toNat (w : Word) : (fieldsOf w).n.toNat = w.toNat % 16 := by simp [fieldsOf]

theorem fieldsOf_nn_toNat (w : Word) : (fieldsOf w).nn.toNat = w.toNat % 256 := by simp [fieldsOf]

theorem fieldsOf_nnn_toNat (w : Word) : (fieldsOf w).nnn.toNat = w.toNat % 4096 := by simp [fieldsOf]

theorem fieldsOf_wf (w : Word) : (fieldsOf w).wf = true := by
  rw [← packXY_fieldsOf w, fieldsOf_packXY]
  simp [Fields.wf]

/-! ## What decodes (R101, R120) -/

theorem decode_encode (i : Instr) : decode (encode i) = .ok i := by
  cases i
  case cls | ret => decide
  all_goals
    simp [decode, encode, fieldsOf_packN, fieldsOf_packX, fieldsOf_packXY, decodeFields, decode8, decodeE, decodeF]

theorem encode_of_decode0 (h : decode0 f = .ok i) : encode i = packN 0x0 f.nnn := by
  unfold decode0 at h
  split_ifs at h with hcls hret
  · cases h; rw [hcls]; decide
  · cases h; rw [hret]; decide

theorem encode_of_decode8 (h : decode8 f = .ok i) : encode i = packXY 0x8 (regOf f.x) (regOf f.y) f.n := by
  unfold decode8 at h
  split at h <;> cases h
  all_goals exact congrArg (packXY 0x8 _ _) (BitVec.eq_of_toNat_eq (Eq.symm ‹_›))

theorem encode_of_decodeE (h : decodeE f = .ok i) : encode i = packX 0xE (regOf f.x) f.nn := by
  unfold decodeE at h
  split at h <;> cases h
  all_goals exact congrArg (packX 0xE _) (BitVec.eq_of_toNat_eq (Eq.symm ‹_›))

theorem encode_of_decodeF (h : decodeF f = .ok i) : encode i = packX 0xF (regOf f.x) f.nn := by
  unfold decodeF at h
  split at h <;> cases h
  all_goals exact congrArg (packX 0xF _) (BitVec.eq_of_toNat_eq (Eq.symm ‹_›))

theorem encode_of_decode (h : decode w = .ok i) : encode i = w := by
  unfold decode decodeFields at h
  have isOp {k : BitVec 4} (hk : (fieldsOf w).op.toNat = k.toNat) : (fieldsOf w).op = k := BitVec.eq_of_toNat_eq hk
  split at h
  case h_1 hop => exact (encode_of_decode0 h).trans (packN_of_op (isOp hop))
  case h_6 hop | h_10 hop =>
    split_ifs at h with hn
    cases h; exact packXY_of_op_n ⟨isOp hop, hn⟩
  case h_9 hop => exact (encode_of_decode8 h).trans (packXY_of_op (isOp hop))
  case h_14 hop => cases h; exact encode_drw_of_op (isOp hop)
  case h_15 hop => exact (encode_of_decodeE h).trans (packX_of_op (isOp hop))
  case h_16 =>
    have hop : (fieldsOf w).op.toNat = 0xF := by have := (fieldsOf w).op.isLt; grind
    exact (encode_of_decodeF h).trans (packX_of_op (isOp hop))
  case h_2 hop | h_3 hop | h_11 hop | h_12 hop => cases h; exact packN_of_op (isOp hop)
  case h_4 hop | h_5 hop | h_7 hop | h_8 hop | h_13 hop => cases h; exact packX_of_op (isOp hop)

theorem decode_ok_iff : decode w = .ok i ↔ encode i = w :=
  ⟨encode_of_decode, fun h => h ▸ decode_encode i⟩

/-! ## The illegal words (R102, R110) -/

/-- The fields for which the decoder answers with the error (R110, R213). -/
def Fields.Illegal (f : Fields) : DecodeError → Prop
  | .truncated => False
  | .family0 => f.op.toNat = 0x0 ∧ f.nnn ≠ 0x0E0 ∧ f.nnn ≠ 0x0EE
  | .family5 => f.op.toNat = 0x5 ∧ f.n ≠ 0
  | .family8 => f.op.toNat = 0x8 ∧ f.n.toNat ∉ [0x0, 0x1, 0x2, 0x3, 0x4, 0x5, 0x6, 0x7, 0xE]
  | .family9 => f.op.toNat = 0x9 ∧ f.n ≠ 0
  | .familyE => f.op.toNat = 0xE ∧ f.nn.toNat ∉ [0x9E, 0xA1]
  | .familyF => f.op.toNat = 0xF ∧ f.nn.toNat ∉ [0x07, 0x0A, 0x15, 0x18, 0x1E, 0x29, 0x33, 0x55, 0x65]

theorem decode0_error_iff : decode0 f = .error e ↔ e = .family0 ∧ f.nnn ≠ 0x0E0 ∧ f.nnn ≠ 0x0EE := by
  unfold decode0
  split_ifs <;> simp_all [eq_comm]

theorem decode8_error_iff :
    decode8 f = .error e ↔ e = .family8 ∧ f.n.toNat ∉ [0x0, 0x1, 0x2, 0x3, 0x4, 0x5, 0x6, 0x7, 0xE] := by
  unfold decode8
  split <;> simp_all [eq_comm]

theorem decodeE_error_iff : decodeE f = .error e ↔ e = .familyE ∧ f.nn.toNat ∉ [0x9E, 0xA1] := by
  unfold decodeE
  split <;> simp_all [eq_comm]

theorem decodeF_error_iff :
    decodeF f = .error e ↔
      e = .familyF ∧ f.nn.toNat ∉ [0x07, 0x0A, 0x15, 0x18, 0x1E, 0x29, 0x33, 0x55, 0x65] := by
  unfold decodeF
  split <;> simp_all [eq_comm]

theorem decodeFields_error_iff : decodeFields f = .error e ↔ f.Illegal e := by
  unfold decodeFields
  split
  case h_1 hop => rw [decode0_error_iff]; cases e <;> simp [Fields.Illegal, hop]
  case h_6 hop | h_10 hop => split_ifs <;> cases e <;> simp_all [Fields.Illegal]
  case h_9 hop => rw [decode8_error_iff]; cases e <;> simp [Fields.Illegal, hop]
  case h_15 hop => rw [decodeE_error_iff]; cases e <;> simp [Fields.Illegal, hop]
  case h_16 =>
    have hop : f.op.toNat = 0xF := by have := f.op.isLt; grind
    rw [decodeF_error_iff]; cases e <;> simp [Fields.Illegal, hop]
  all_goals cases e <;> simp [Fields.Illegal, *]

theorem decode_error_iff : decode w = .error e ↔ (fieldsOf w).Illegal e := decodeFields_error_iff

theorem illegal_family0_iff :
    (fieldsOf w).Illegal .family0 ↔ w.toNat < 0x1000 ∧ w ≠ 0x00E0 ∧ w ≠ 0x00EE := by
  simp only [Fields.Illegal, fieldsOf_op_toNat, ne_eq, ← BitVec.toNat_inj, fieldsOf_nnn_toNat,
    BitVec.ofNat_eq_ofNat, BitVec.toNat_ofNat]
  omega

theorem illegal_family5_iff : (fieldsOf w).Illegal .family5 ↔ w.toNat / 4096 = 5 ∧ w.toNat % 16 ≠ 0 := by
  simp [Fields.Illegal, fieldsOf_op_toNat, ← BitVec.toNat_inj, fieldsOf_n_toNat]

theorem illegal_family8_iff :
    (fieldsOf w).Illegal .family8 ↔
      w.toNat / 4096 = 8 ∧ w.toNat % 16 ∈ [0x8, 0x9, 0xA, 0xB, 0xC, 0xD, 0xF] := by
  have compl : ∀ k < 16, k ∉ [0x0, 0x1, 0x2, 0x3, 0x4, 0x5, 0x6, 0x7, 0xE] ↔
      k ∈ [0x8, 0x9, 0xA, 0xB, 0xC, 0xD, 0xF] := by decide
  rw [Fields.Illegal, fieldsOf_op_toNat, fieldsOf_n_toNat, compl _ (Nat.mod_lt _ (by decide))]

theorem illegal_family9_iff : (fieldsOf w).Illegal .family9 ↔ w.toNat / 4096 = 9 ∧ w.toNat % 16 ≠ 0 := by
  simp [Fields.Illegal, fieldsOf_op_toNat, ← BitVec.toNat_inj, fieldsOf_n_toNat]

theorem illegal_familyE_iff :
    (fieldsOf w).Illegal .familyE ↔ w.toNat / 4096 = 0xE ∧ w.toNat % 256 ∉ [0x9E, 0xA1] := by
  rw [Fields.Illegal, fieldsOf_op_toNat, fieldsOf_nn_toNat]

theorem illegal_familyF_iff :
    (fieldsOf w).Illegal .familyF ↔ w.toNat / 4096 = 0xF ∧
      w.toNat % 256 ∉ [0x07, 0x0A, 0x15, 0x18, 0x1E, 0x29, 0x33, 0x55, 0x65] := by
  rw [Fields.Illegal, fieldsOf_op_toNat, fieldsOf_nn_toNat]

/-! ## The rows of the opcode table (R94, R100) -/

/-- Two rows are disjoint when their fixed bits differ under both masks. -/
theorem disjoint_of_fixed {r q : Row} (h : r.fixed &&& q.mask ≠ q.fixed &&& r.mask) (w : Word) :
    ¬(w &&& r.mask = r.fixed ∧ w &&& q.mask = q.fixed) := by
  rintro ⟨hr, hq⟩
  exact h (by rw [← hr, ← hq, BitVec.and_assoc, BitVec.and_assoc, BitVec.and_comm q.mask])

theorem encode_matches_row (i : Instr) :
    ∃ r ∈ opcodeTable, r.mnemonic = i.mnemonic ∧ encode i &&& r.mask = r.fixed := by
  have h : Laws.MatchesRow.Statement i := by
    open Laws.MatchesRow in
    cases i
    exacts [cls, ret, jp _, call _, seImm .., sneImm .., seReg .., ldImm .., addImm .., ldReg .., or .., and ..,
      xor .., addReg .., sub .., shr .., subn .., shl .., sneReg .., ldI _, jpV0 _, rnd .., drw .., skp _, sknp _,
      ldVxDt _, ldVxK _, ldDtVx _, ldStVx _, addI _, ldF _, ldB _, ldMemVx _, ldVxMem _]
  simpa [Laws.MatchesRow.Statement, Row.matches] using h

/-! What a match test fixes, mask by mask. -/

theorem op_of_mask_F000 (h : w &&& 0xF000 = packN op 0) : (fieldsOf w).op = op := by
  rw [← packN_fieldsOf w, packN_mask_F000] at h
  simpa [fieldsOf_packN] using congrArg (fun v => (fieldsOf v).op) h

theorem op_n_of_mask_F00F (h : w &&& 0xF00F = packXY op 0 0 n) : (fieldsOf w).op = op ∧ (fieldsOf w).n = n := by
  rw [← packXY_fieldsOf w, packXY_mask_F00F] at h
  simpa [fieldsOf_packXY] using congrArg (fun v => ((fieldsOf v).op, (fieldsOf v).n)) h

theorem op_nn_of_mask_F0FF (h : w &&& 0xF0FF = packX op 0 nn) : (fieldsOf w).op = op ∧ (fieldsOf w).nn = nn := by
  rw [← packX_fieldsOf w, packX_mask_F0FF] at h
  simpa [fieldsOf_packX] using congrArg (fun v => ((fieldsOf v).op, (fieldsOf v).nn)) h

/-- Every word of the row is the encoding of an instruction. -/
def Row.Encoded (r : Row) : Prop := ∀ w : Word, w &&& r.mask = r.fixed → ∃ i, encode i = w

/-! Such a row for each format (R94), from the constructor of its instruction. -/

namespace Row.Encoded

variable {s : String}

theorem word (i : Instr) : Row.Encoded ⟨s, encode i, 0xFFFF⟩ := fun _ h => ⟨i, h.symm.trans BitVec.and_allOnes⟩

theorem nnn (c : Addr → Instr) (hc : ∀ a, encode (c a) = packN op a) : Row.Encoded ⟨s, packN op 0, 0xF000⟩ :=
  fun _ h => ⟨c _, (hc _).trans (packN_of_op (op_of_mask_F000 h))⟩

theorem xnn (c : Reg → Byte → Instr) (hc : ∀ x b, encode (c x b) = packX op x b) :
    Row.Encoded ⟨s, packN op 0, 0xF000⟩ :=
  fun _ h => ⟨c _ _, (hc _ _).trans (packX_of_op (op_of_mask_F000 h))⟩

theorem xss (c : Reg → Instr) (hc : ∀ x, encode (c x) = packX op x nn) : Row.Encoded ⟨s, packX op 0 nn, 0xF0FF⟩ :=
  fun _ h => ⟨c _, (hc _).trans (packX_of_op_nn (op_nn_of_mask_F0FF h))⟩

theorem xys (c : Reg → Reg → Instr) (hc : ∀ x y, encode (c x y) = packXY op x y n) :
    Row.Encoded ⟨s, packXY op 0 0 n, 0xF00F⟩ :=
  fun _ h => ⟨c _ _, (hc _ _).trans (packXY_of_op_n (op_n_of_mask_F00F h))⟩

theorem drw : Row.Encoded ⟨s, 0xD000, 0xF000⟩ := fun _ h => ⟨_, encode_drw_of_op (op_of_mask_F000 h)⟩

end Row.Encoded

theorem encoded_families0to7 : ∀ r ∈ tableFamilies0to7, r.Encoded := by
  simp only [tableFamilies0to7, List.forall_mem_cons]
  exact ⟨.word .cls, .word .ret, .nnn .jp fun _ => rfl, .nnn .call fun _ => rfl, .xnn .seImm fun _ _ => rfl,
    .xnn .sneImm fun _ _ => rfl, .xys .seReg fun _ _ => rfl, .xnn .ldImm fun _ _ => rfl,
    .xnn .addImm fun _ _ => rfl, List.forall_mem_nil _⟩

theorem encoded_family8 : ∀ r ∈ tableFamily8, r.Encoded := by
  simp only [tableFamily8, List.forall_mem_cons]
  exact ⟨.xys .ldReg fun _ _ => rfl, .xys .or fun _ _ => rfl, .xys .and fun _ _ => rfl, .xys .xor fun _ _ => rfl,
    .xys .addReg fun _ _ => rfl, .xys .sub fun _ _ => rfl, .xys .shr fun _ _ => rfl, .xys .subn fun _ _ => rfl,
    .xys .shl fun _ _ => rfl, List.forall_mem_nil _⟩

theorem encoded_families9toE : ∀ r ∈ tableFamilies9toE, r.Encoded := by
  simp only [tableFamilies9toE, List.forall_mem_cons]
  exact ⟨.xys .sneReg fun _ _ => rfl, .nnn .ldI fun _ => rfl, .nnn .jpV0 fun _ => rfl, .xnn .rnd fun _ _ => rfl,
    .drw, .xss .skp fun _ => rfl, .xss .sknp fun _ => rfl, List.forall_mem_nil _⟩

theorem encoded_familyF : ∀ r ∈ tableFamilyF, r.Encoded := by
  simp only [tableFamilyF, List.forall_mem_cons]
  exact ⟨.xss .ldVxDt fun _ => rfl, .xss .ldVxK fun _ => rfl, .xss .ldDtVx fun _ => rfl, .xss .ldStVx fun _ => rfl,
    .xss .addI fun _ => rfl, .xss .ldF fun _ => rfl, .xss .ldB fun _ => rfl, .xss .ldMemVx fun _ => rfl,
    .xss .ldVxMem fun _ => rfl, List.forall_mem_nil _⟩

theorem opcodeTable_encoded : ∀ r ∈ opcodeTable, r.Encoded := by
  simp only [opcodeTable, List.forall_mem_append]
  exact ⟨⟨⟨encoded_families0to7, encoded_family8⟩, encoded_families9toE⟩, encoded_familyF⟩

end Sys2Proof

namespace Sys2Proof

/-- Settles O5: the bytes of a word decode as the word does. -/
theorem decodeOfEncode : Obligations.DecodeOfEncode := by
  intro i rest
  rw [encodeBytes, decodeBytes_wordBytes, decode_encode]
  rfl

/-- Settles O6, along the arms of the decoder (`encode_of_decode`). -/
theorem encodeOfDecode : Obligations.EncodeOfDecode := fun _ _ => decode_ok_iff.1

/-- Settles O7: a word that decodes is an encoding, and the words of the rows are the encodings. -/
theorem decodeAgreesWithOpcodeTable : Obligations.DecodeAgreesWithOpcodeTable := by
  have row : ∀ (w : Word) (i : Instr), decode w = .ok i →
      ∃ r ∈ opcodeTable, r.mnemonic = i.mnemonic ∧ w &&& r.mask = r.fixed := by
    intro w i h
    obtain rfl := encode_of_decode h
    exact encode_matches_row i
  refine ⟨fun w => ⟨?_, ?_⟩, row⟩
  · rintro ⟨i, h⟩
    obtain ⟨r, hr, -, hw⟩ := row w i h
    exact ⟨r, hr, hw⟩
  · rintro ⟨r, hr, hw⟩
    obtain ⟨i, hi⟩ := opcodeTable_encoded r hr w hw
    exact ⟨i, decode_ok_iff.2 hi⟩

/-- Settles O8: any two rows have fixed bits that differ under both masks. -/
theorem opcodeRowsAreDisjoint : Obligations.OpcodeRowsAreDisjoint :=
  have h : opcodeTable.Pairwise fun r q => r.fixed &&& q.mask ≠ q.fixed &&& r.mask := by decide
  ⟨rfl, h.imp disjoint_of_fixed⟩

/-- Settles O9: the errors of the decoder, read from the fields, in the numbers of the word. -/
theorem illegalWordsByFamily : Obligations.IllegalWordsByFamily := fun _ =>
  ⟨decode_error_iff.trans illegal_family0_iff, decode_error_iff.trans illegal_family5_iff,
    decode_error_iff.trans illegal_family8_iff, decode_error_iff.trans illegal_family9_iff,
    decode_error_iff.trans illegal_familyE_iff, decode_error_iff.trans illegal_familyF_iff, decode_error_iff.1⟩

/-- Settles O10: each of the twelve words, evaluated. -/
theorem decodedSampleWords : Obligations.DecodedSampleWords := by
  unfold Obligations.DecodedSampleWords
  decide

/-- Settles O11: a field is a quotient and a remainder of the word, and the word is packed from its fields. -/
theorem fieldsOfEveryWord : Obligations.FieldsOfEveryWord := fun w =>
  ⟨fieldsOf_op_toNat w, fieldsOf_x_toNat w, fieldsOf_y_toNat w, fieldsOf_n_toNat w, fieldsOf_nn_toNat w,
    fieldsOf_nnn_toNat w, fieldsOf_wf w⟩

end Sys2Proof
end

section
/-! The instruction cycle (R130 to R137): a step is total on machines that run, and the draws and events
that a completed instruction takes. -/

namespace Sys2Proof.Machine

variable {s : State} {f : Fault}

/-! ## A step is total (R137, R343) -/

theorem step_next_of_running (hr : Running s) : ∃ t, step s = .next t := by
  by_cases hpc : s.pc = 0xFFF
  · exact ⟨_, step_of_top hr hpc⟩
  · cases hd : decode (fetchedWord s) with
    | error e => exact ⟨_, step_of_decode_error hr hpc hd⟩
    | ok i => exact ⟨_, (step_of_decode_ok hr hpc hd).trans (exec_eq i s)⟩

/-- A step answers a next state where no fault is latched, and the latched fault otherwise. -/
theorem step_total (s : State) :
    (Running s ∧ ∃ t, step s = .next t) ∨ ∃ f, s.fault = some f ∧ step s = .fault f := by
  cases hl : s.fault with
  | none => exact .inl ⟨hl, step_next_of_running hl⟩
  | some f => exact .inr ⟨f, rfl, step_of_latched hl⟩

theorem step_eq_fault_iff : step s = .fault f ↔ s.fault = some f := by
  refine ⟨fun h => ?_, step_of_latched⟩
  obtain ⟨-, t, ht⟩ | ⟨g, hg, hstep⟩ := step_total s
  · cases ht.symm.trans h
  · cases hstep.symm.trans h; exact hg

theorem step_ne_refused (s : State) (r : Refusal) : step s ≠ .refused r := by
  intro h
  obtain ⟨-, t, ht⟩ | ⟨f, -, hstep⟩ := step_total s
  · cases ht.symm.trans h
  · cases hstep.symm.trans h

/-! ## Draws and events (R136) -/

/-- Only under `AnyByte` is the byte left in `VF` a draw (R203). -/
theorem setLogicVf_vfDraws_taken (s : State) :
    s.setLogicVf.vfDraws.taken = s.vfDraws.taken + if s.cfg.logicVf = .anyByte then 1 else 0 := by
  cases hl : s.cfg.logicVf <;> simp [State.setLogicVf, hl]

/-- The draws and events of a completed `8xy0` to `8xy3`: those of `LOGIC_VF` alone. -/
theorem logicDone_draws (s : State) (x : Reg) (r : Byte) :
    (logicDone s x r).rng.taken = s.rng.taken ∧ (logicDone s x r).keys.taken = s.keys.taken ∧
      (logicDone s x r).vfDraws.taken = s.vfDraws.taken + (if s.cfg.logicVf = .anyByte then 1 else 0) ∧
      (logicDone s x r).hooks.length = s.hooks.length ∧ (logicDone s x r).cfg = s.cfg :=
  ⟨congrArg Draws.taken (setLogicVf_rng _), congrArg Draws.taken (setLogicVf_keys _),
    setLogicVf_vfDraws_taken _, congrArg List.length (setLogicVf_hooks _), setLogicVf_cfg _⟩

end Sys2Proof.Machine

namespace Sys2Proof.Machine

/-- Settles O15: fetch, decode and every instruction answer a next state, and only the latch answers a fault. -/
theorem stepIsTotal : Obligations.StepIsTotal :=
  ⟨fun _ => step_next_of_running, fun _ _ => step_eq_fault_iff, step_ne_refused⟩

/-- Settles O30: the instructions that draw or emit are those whose completed state goes through
`randomTaken`, `keyTaken`, `State.setLogicVf` or an appended event. -/
theorem drawsPerInstruction : Obligations.DrawsPerInstruction := by
  intro i s t _ h ht
  obtain rfl := eq_completed_of_running h ht
  cases i with
  | rnd x nn => exact ⟨Draws.rest_taken s.rng, rfl, rfl, rfl, rfl⟩
  | skp x => exact ⟨rfl, Draws.rest_taken s.keys, rfl, rfl, rfl⟩
  | sknp x => exact ⟨rfl, Draws.rest_taken s.keys, rfl, rfl, rfl⟩
  | ldReg x y => exact logicDone_draws s x (s.getV y)
  | or x y => exact logicDone_draws s x (s.getV x ||| s.getV y)
  | and x y => exact logicDone_draws s x (s.getV x &&& s.getV y)
  | xor x y => exact logicDone_draws s x (s.getV x ^^^ s.getV y)
  | ldVxDt x => exact ⟨rfl, rfl, rfl, List.length_append, rfl⟩
  | ldVxK x => exact ⟨rfl, rfl, rfl, List.length_append, rfl⟩
  | ldDtVx x => exact ⟨rfl, rfl, rfl, List.length_append, rfl⟩
  | ldStVx x => exact ⟨rfl, rfl, rfl, List.length_append, rfl⟩
  | _ => exact ⟨rfl, rfl, rfl, rfl, rfl⟩

end Sys2Proof.Machine
end

section
/-! Control transfer (R150 to R155): the return and the full stack of the call, and the jump, the call and
the return as `exec` answers them. -/

namespace Sys2Proof.Machine

variable {s : State} {nnn back : Addr} {rest : List Addr}

theorem exec_ret_of_cons (h : s.stack = back :: rest) :
    exec .ret s = .next { s with pc := back, stack := rest } := by
  have hf : faultOf .ret s = none := if_neg (h ▸ List.cons_ne_nil back rest)
  rw [exec_of_no_fault hf]
  simp [completed, h]

theorem exec_ret_of_nil (h : s.stack = []) :
    exec .ret s = .next { s with fault := some .missingReturnAddress } := exec_of_fault (if_pos h)

/-- The stack is tested before the carry of `pc + 2` (R337). -/
theorem faultOf_call_of_full (h : stackFull s = true) : faultOf (.call nnn) s = some .stackOverflow := if_pos h

end Sys2Proof.Machine

namespace Sys2Proof.Machine

/-- Settles O35: the completed call has `pc + 2` on top of the stack of `s`, and the return pops it. -/
theorem callThenReturnComesBack : Obligations.CallThenReturnComesBack := by
  intro s t u nnn _ hcall ht hu
  obtain rfl := eq_completed_of_running hcall ht
  exact ⟨_, exec_ret_of_cons hu, rfl, rfl⟩

/-- Settles O31: a pop completes, and on the empty stack there is none. -/
theorem returnPopsOrFaults : Obligations.ReturnPopsOrFaults := fun _ =>
  ⟨fun _ _ => exec_ret_of_cons, exec_ret_of_nil⟩

/-- Settles O32: the jump has no check, and the step runs the jump that the fetched word encodes. -/
theorem jumpSetsPc : Obligations.JumpSetsPc := by
  refine ⟨fun s nnn => exec_of_no_fault rfl, fun s hr hpc hword => ?_⟩
  have hd : decode (fetchedWord s) = .ok (.jp s.pc) := decode_ok_iff.2 hword.symm
  exact (step_of_decode_ok hr hpc hd).trans (exec_of_no_fault rfl)

/-- Settles O33: the one check is the carry of the sum. -/
theorem jumpPlusV0SetsPc : Obligations.JumpPlusV0SetsPc := fun _ _ hfit => exec_of_no_fault (carries_fits hfit)

/-- Settles O34: with room only the carry is left to check, and a full stack faults before it. -/
theorem callPushesReturnAddress : Obligations.CallPushesReturnAddress := by
  refine fun s nnn => ⟨fun hroom hadv => ?_, fun depth hd hle => ?_⟩
  · exact exec_of_no_fault ((faultOf_call_of_room hroom).trans (carries_fits hadv))
  · exact exec_of_fault (faultOf_call_of_full (stackFull_iff.2 ⟨depth, hd, hle⟩))

end Sys2Proof.Machine
end

section
/-! Conditional skips (R170 to R177): the skips that compare, and the key skips for a key number in range
and out of range. -/

namespace Sys2Proof.Machine

variable {s t : State} {i : Instr} {x : Reg} {k : Byte}

/-- A skip that tests `p` and makes no other check, where the new `pc` fits (R170). -/
theorem exec_skip_of_fits {p : Prop} [Decidable p] {c : Bool} (hc : c = true ↔ p)
    (hi : faultOf i s = carries s (s.pc.toNat + if c then 4 else 2))
    (hdone : completed i s = { t with pc := s.pc + if c then 4 else 2 })
    (hfit : AddrFits s (s.pc.toNat + if p then 4 else 2)) :
    exec i s = .next { t with pc := if p then s.pc + 4 else s.pc + 2 } := by
  simp only [hc] at hi hdone
  rw [exec_of_no_fault (hi.trans (carries_fits hfit)), hdone, apply_ite (s.pc + ·)]

theorem exec_skp_of_fits (h : KeyAnswered s x) (hk : askedKey s x = k)
    (hfit : AddrFits s (s.pc.toNat + if keyPressed s k then 4 else 2)) :
    exec (.skp x) s = .next { keyTaken s with pc := if keyPressed s k then s.pc + 4 else s.pc + 2 } := by
  subst hk
  exact exec_skip_of_fits .rfl (faultOf_skp_of_answered h) rfl hfit

/-- `ExA1` tests the contrary of the answer (R176). -/
theorem exec_sknp_of_fits (h : KeyAnswered s x) (hk : askedKey s x = k)
    (hfit : AddrFits s (s.pc.toNat + if keyPressed s k then 2 else 4)) :
    exec (.sknp x) s = .next { keyTaken s with pc := if keyPressed s k then s.pc + 2 else s.pc + 4 } := by
  subst hk
  rw [← ite_not] at hfit ⊢
  exact exec_skip_of_fits (by rw [Bool.not_eq_true', Bool.not_eq_true]) (faultOf_sknp_of_answered h) rfl hfit

/-- The first check of a key skip (R177, R337). -/
theorem faultOf_skp_of_outOfRange (h : numKeys ≤ (s.getV x).toNat) (hf : s.cfg.keyOor = .fault) :
    faultOf (.skp x) s = some (.keyOutOfRange (s.getV x)) := if_pos ⟨h, hf⟩

theorem faultOf_sknp_of_outOfRange (h : numKeys ≤ (s.getV x).toNat) (hf : s.cfg.keyOor = .fault) :
    faultOf (.sknp x) s = some (.keyOutOfRange (s.getV x)) := if_pos ⟨h, hf⟩

theorem askedKey_of_inRange (h : (s.getV x).toNat < numKeys) : askedKey s x = s.getV x := if_pos (.inl h)

theorem askedKey_of_outOfRange (h : numKeys ≤ (s.getV x).toNat) (hf : s.cfg.keyOor ≠ .fault) :
    askedKey s x = if s.cfg.keyOor = .mask4 then s.getV x &&& 0x0F else s.getV x := by
  rw [askedKey_of_answered (.inr hf)]
  simp only [h, true_and]

end Sys2Proof.Machine

namespace Sys2Proof.Machine

/-- Settles O36: the four skips differ in the condition alone. -/
theorem compareSkips : Obligations.CompareSkips := fun _ _ _ _ =>
  ⟨exec_skip_of_fits beq_iff_eq rfl rfl, exec_skip_of_fits bne_iff_ne rfl rfl,
    exec_skip_of_fits beq_iff_eq rfl rfl, exec_skip_of_fits bne_iff_ne rfl rfl⟩

/-- Settles O37: a key number in range is answered, and is itself the number asked about. -/
theorem keySkips : Obligations.KeySkips := fun _ _ hlt =>
  have hask := askedKey_of_inRange hlt
  ⟨exec_skp_of_fits (.inl hlt) hask, exec_sknp_of_fits (.inl hlt) hask⟩

/-- Settles O38: under `Fault` the first check fails, and otherwise the number is answered as in range. -/
theorem keySkipsOutOfRange : Obligations.KeySkipsOutOfRange := by
  refine fun s x hge => ⟨fun hf => ?_, fun hf => ?_⟩
  · exact ⟨exec_of_fault (faultOf_skp_of_outOfRange hge hf), exec_of_fault (faultOf_sknp_of_outOfRange hge hf)⟩
  · have hask := askedKey_of_outOfRange hge hf
    exact ⟨exec_skp_of_fits (.inr hf) hask, exec_sknp_of_fits (.inr hf) hask⟩

end Sys2Proof.Machine
end

section
/-! Immediate load, immediate add and the random load (R190 to R192): what `Cxnn` leaves in its register, and
the byte it draws. -/

namespace Sys2Proof.Machine

theorem completed_rnd_getV (s : State) (x : Reg) (nn : Byte) :
    (completed (.rnd x nn) s).getV x = randomByte s &&& nn :=
  getV_setV_self (randomTaken s) x _

/-- An injected byte is the one drawn (R44). -/
theorem randomByte_of_injected (s : State) (r : Byte) : randomByte { s with rng := ⟨[r], 0⟩ } = r :=
  Draws.value_supplied Config.freeRandom r [] 0

end Sys2Proof.Machine

namespace Sys2Proof.Machine

/-- Settles O41: whatever is drawn goes through the mask, and the byte `r` is drawn when it is injected. -/
theorem randomBytesAreMaskedAndFree : Obligations.RandomBytesAreMaskedAndFree := by
  refine ⟨fun s t x nn _ h ht k hk => ?_, fun s x nn r hadv => ?_⟩
  · obtain rfl := eq_completed_of_running h ht
    rw [completed_rnd_getV, BitVec.getLsbD_and, hk, Bool.and_false]
  · refine ⟨⟨[r], 0⟩, _, exec_of_no_fault (carries_fits hadv), ?_⟩
    rw [completed_rnd_getV, randomByte_of_injected]

/-- Settles O39: neither instruction has a check but the carry of `pc + 2`. -/
theorem loadAndAddImmediate : Obligations.LoadAndAddImmediate := fun _ _ _ hadv =>
  ⟨exec_of_no_fault (carries_fits hadv), exec_of_no_fault (carries_fits hadv)⟩

/-- Settles O40: the one check is the carry of `pc + 2`. -/
theorem randomLoad : Obligations.RandomLoad := fun _ _ _ hadv => exec_of_no_fault (carries_fits hadv)

end Sys2Proof.Machine
end

section
/-! The ALU (R200 to R212): what `LOGIC_VF` leaves in `VF`, what an operation with a flag leaves in its two
registers, and that the flag makes the result modulo 256 exact. -/

namespace Sys2Proof.Machine

variable {s t : State} {i : Instr} {x y : Reg} {r f g : Byte}

/-! ## The copy and the bitwise operations (R203 to R207) -/

/-- The result of `8xy0` to `8xy3` is a function of the registers alone. -/
theorem exec_eq_logicOp (hi : i ∈ [Instr.ldReg x y, .or x y, .and x y, .xor x y]) :
    ∃ result : Vector Byte 16 → Byte, ∀ s, exec i s = logicOp x (result s.v) s := by
  simp only [List.mem_cons, List.not_mem_nil, or_false] at hi
  obtain rfl | rfl | rfl | rfl := hi
  · exact ⟨fun v => v[y], fun _ => rfl⟩
  · exact ⟨fun v => v[x] ||| v[y], fun _ => rfl⟩
  · exact ⟨fun v => v[x] &&& v[y], fun _ => rfl⟩
  · exact ⟨fun v => v[x] ^^^ v[y], fun _ => rfl⟩

theorem logicOp_of_fits (h : CanAdvance s) : logicOp x r s = .next (logicDone s x r) := advance_of_fits h

theorem logicOp_of_not_fits (h : ¬CanAdvance s) : logicOp x r s = raise .addressCarry s := advance_of_not_fits h

theorem setLogicVf_of_anyByte (h : s.cfg.logicVf = .anyByte) :
    s.setLogicVf = { s.setV vF (s.vfDraws.value Config.freeLogicVf) with vfDraws := s.vfDraws.rest } := by
  unfold State.setLogicVf; rw [h]

theorem setLogicVf_of_zero (h : s.cfg.logicVf = .zero) : s.setLogicVf = s.setV vF 0 := by
  unfold State.setLogicVf; rw [h]

theorem setLogicVf_of_untouched (h : s.cfg.logicVf = .untouched) : s.setLogicVf = s := by
  unfold State.setLogicVf; rw [h]

/-- The machine under `AnyByte` with `d` as its next draw for `VF`. -/
def underAnyByte (s : State) (d : Byte) : State :=
  { s with vfDraws := ⟨[d], 0⟩, cfg := { s.cfg with logicVf := .anyByte } }

theorem setV_getV_self (s : State) (k : Reg) : s.setV k (s.getV k) = s := by
  simp [State.setV, State.getV]

/-- Under `Zero` and `Untouched` too one byte is what `VF` is set to: 0, or what stands there. -/
theorem setLogicVf_eq_setV (h : s.cfg.logicVf ≠ .anyByte) : ∃ d, s.setLogicVf = s.setV vF d := by
  cases hl : s.cfg.logicVf with
  | anyByte => exact absurd hl h
  | zero => exact ⟨0, setLogicVf_of_zero hl⟩
  | untouched => exact ⟨s.getV vF, (setLogicVf_of_untouched hl).trans (setV_getV_self s vF).symm⟩

/-- Drawing that byte leads under `AnyByte` to the same state, but for the record of the draws (R203). -/
theorem logicDone_underAnyByte (h : s.cfg.logicVf ≠ .anyByte) (x : Reg) (r : Byte) :
    ∃ d, logicDone (underAnyByte s d) x r =
      { logicDone s x r with cfg := { s.cfg with logicVf := .anyByte }, vfDraws := ⟨[], 1⟩ } := by
  obtain ⟨d, hd⟩ := setLogicVf_eq_setV (s := s.setV x r) h
  refine ⟨d, ?_⟩
  rw [logicDone, logicDone, hd, setLogicVf_of_anyByte rfl]; rfl

/-! ## The operations with a flag (R201, R202, R208 to R212) -/

theorem flagOp_of_fits (hadv : CanAdvance s) (hg : f = g) :
    flagOp x r f s = .next { s with v := (s.v.set x r).set vF g, pc := s.pc + 2 } :=
  hg ▸ advance_of_fits hadv

/-- Where the destination is not `VF`, result and flag stand side by side (R202). -/
theorem flagOp_getV (hx : x ≠ vF) (ht : Running t) (h : flagOp x r f s = .next t) :
    t.getV x = r ∧ t.getV vF = f := by
  obtain ⟨-, rfl⟩ | ⟨-, rfl⟩ := goto_cases h
  · exact ⟨(getV_setResultAndFlag s x x r f).trans ((if_neg hx).trans (if_pos rfl)),
      getV_setResultAndFlag_vF s x r f⟩
  · cases ht

theorem add_carryFlag_exact (a b : Byte) : (a + b).toNat + 256 * (carryFlag a b).toNat = a.toNat + b.toNat := by
  rw [carryFlag_eq, BitVec.toNat_add]
  split
  · simp; omega
  · simp; omega

theorem sub_notBorrowFlag_exact (a b : Byte) :
    (a - b).toNat + b.toNat + 256 * (notBorrowFlag a b).toNat = a.toNat + 256 := by
  rw [notBorrowFlag_eq, BitVec.toNat_sub]
  split
  · simp; omega
  · simp; omega

theorem shr_shiftedOutLow_exact (a : Byte) : 2 * (a >>> 1).toNat + (shiftedOutLow a).toNat = a.toNat := by
  have hlow : (shiftedOutLow a).toNat = a.toNat % 2 := Nat.and_one_is_mod a.toNat
  rw [hlow, BitVec.toNat_ushiftRight, Nat.shiftRight_eq_div_pow]
  omega

theorem shl_shiftedOutHigh_exact (a : Byte) : (a <<< 1).toNat + 256 * (shiftedOutHigh a).toNat = 2 * a.toNat := by
  rw [shiftedOutHigh, BitVec.toNat_ushiftRight, BitVec.toNat_shiftLeft, Nat.shiftRight_eq_div_pow, Nat.shiftLeft_eq]
  omega

end Sys2Proof.Machine

namespace Sys2Proof.Machine

/-- Settles O43: `logicDone_underAnyByte` gives the draw, and a carry faults the same under every `LOGIC_VF`. -/
theorem anyByteAdmitsZeroAndUntouched : Obligations.AnyByteAdmitsZeroAndUntouched := by
  intro s t x y i hi hvf h
  obtain ⟨result, hexec⟩ := exec_eq_logicOp hi
  rw [hexec] at h
  by_cases hadv : CanAdvance s
  · rw [logicOp_of_fits hadv] at h; cases h
    obtain ⟨d, hd⟩ := logicDone_underAnyByte hvf x (result s.v)
    refine ⟨d, logicDone (underAnyByte s d) x (result s.v), ?_, by rw [hd]⟩
    exact (hexec (underAnyByte s d)).trans (logicOp_of_fits hadv)
  · rw [logicOp_of_not_fits hadv] at h; cases h
    exact ⟨0, _, (hexec (underAnyByte s 0)).trans (logicOp_of_not_fits hadv), rfl⟩

/-- Settles O45: the result and the flag of each operation can be read off, and together are exact. -/
theorem aluArithmeticLaws : Obligations.AluArithmeticLaws := by
  refine fun s t x y _ hx ht => ⟨fun h => ?_, fun h => ?_, fun h => ?_, fun h => ?_, fun h => ?_⟩
  all_goals
    obtain ⟨hr, hf⟩ := flagOp_getV hx ht h
    rw [hr, hf]
  · exact add_carryFlag_exact (s.getV x) (s.getV y)
  · exact sub_notBorrowFlag_exact (s.getV x) (s.getV y)
  · exact sub_notBorrowFlag_exact (s.getV y) (s.getV x)
  · exact shr_shiftedOutLow_exact (s.getV x)
  · exact shl_shiftedOutHigh_exact (s.getV x)

/-- Settles O42: the result is written first, and `LOGIC_VF` says what is then written to `VF`. -/
theorem logicOperations : Obligations.LogicOperations := by
  intro s x y i r hi hadv
  have hexec : exec i s = .next (logicDone s x r) := by
    obtain ⟨rfl, rfl⟩ | ⟨rfl, rfl⟩ | ⟨rfl, rfl⟩ | ⟨rfl, rfl⟩ := hi
    all_goals exact logicOp_of_fits hadv
  rw [hexec, logicDone]
  refine ⟨fun hl => ?_, fun hl => ?_, fun hl => ?_⟩
  · rw [setLogicVf_of_anyByte (s := s.setV x r) hl]; rfl
  · rw [setLogicVf_of_zero (s := s.setV x r) hl]; rfl
  · rw [setLogicVf_of_untouched (s := s.setV x r) hl]; rfl

/-- Settles O44: the one check is the carry of `pc + 2`, and each flag computation is its condition. -/
theorem flaggedAluOperations : Obligations.FlaggedAluOperations := fun _ _ _ hadv =>
  ⟨flagOp_of_fits hadv (carryFlag_eq _ _), flagOp_of_fits hadv (notBorrowFlag_eq _ _),
    flagOp_of_fits hadv (shiftedOutLow_eq _), flagOp_of_fits hadv (notBorrowFlag_eq _ _),
    flagOp_of_fits hadv (shiftedOutHigh_eq _)⟩

end Sys2Proof.Machine
end

section
/-! Memory transfer (R233 to R235): what the two stores leave in memory, and the register load in its
registers. -/

namespace Sys2Proof.Machine

variable {s : State} {x k : Reg}

/-! ## The stored bytes -/

theorem read_completed_ldMemVx_of_le (hm : s.mem.wf = true) (hb : s.i.toNat + x.val < memSize) (hk : k ≤ x) :
    (completed (.ldMemVx x) s).mem.read (s.i.toNat + k.val) = s.getV k := by
  have hkx : k.val ≤ x.val := hk
  rw [read_completed_ldMemVx hm hb, if_pos (by omega), Nat.add_sub_cancel_left,
    ← lowRegisters_getD_eq_toList hkx, lowRegisters_getD s x k hk]

theorem read_completed_ldMemVx_of_outside (hm : s.mem.wf = true) (hb : s.i.toNat + x.val < memSize) {a : Nat}
    (ha : a < s.i.toNat ∨ s.i.toNat + x.val < a) : (completed (.ldMemVx x) s).mem.read a = s.mem.read a := by
  rw [read_completed_ldMemVx hm hb, if_neg (by omega)]

/-! ## The loaded registers -/

theorem bytesAt_getD {base n j : Nat} {d : Byte} (hj : j < n) :
    (bytesAt s base n).getD j d = s.mem.read (base + j) := by
  simp [bytesAt, List.getD_eq_getElem?_getD, hj]

theorem completed_ldVxMem_getV (s : State) (x k : Reg) :
    (completed (.ldVxMem x) s).getV k = if k ≤ x then s.mem.read (s.i.toNat + k.val) else s.getV k := by
  split
  · next hk =>
    exact (getElem_loadedRegisters s.v _ k).trans (bytesAt_getD (Nat.lt_succ_of_le hk))
  · next hk => exact completed_getV (decide_eq_false hk)

/-! ## No fault -/

/-- In bounds and without a carry `Fx55` and `Fx65` complete (R234, R235). -/
theorem faultOf_ldMemVx_of_fits (hb : s.i.toNat + x.val < memSize) (hi : AddrFits s (s.i.toNat + x.val + 1))
    (hadv : CanAdvance s) : faultOf (.ldMemVx x) s = none :=
  (faultOf_ldMemVx_of_inBounds hb).trans (carries_or_fits hi hadv)

end Sys2Proof.Machine

namespace Sys2Proof.Machine

/-- Settles O51: both complete, the store wrote `V[k]` to `i + k`, and the load reads it there. -/
theorem storeThenLoadGivesRegistersBack : Obligations.StoreThenLoadGivesRegistersBack := by
  intro s t u r x hm _ hstore ht hmem hi _ hload hr k hk
  have hb := ldMemVx_inBounds_of_no_fault (faultOf_eq_none_of_running hstore ht)
  rw [eq_completed_of_running hload hr, completed_ldVxMem_getV, if_pos hk, hmem, hi,
    eq_completed_of_running hstore ht]
  exact read_completed_ldMemVx_of_le hm hb hk

/-- Settles O48: the bytes written are the digits, each of which is below 256. -/
theorem storeDecimalDigits : Obligations.StoreDecimalDigits := by
  intro s x hm hb hadv
  have hread := read_completed_ldB (x := x) hm hb
  have hV := (s.getV x).isLt
  refine ⟨_, exec_of_no_fault ((faultOf_ldB_of_inBounds hb).trans (carries_fits hadv)), rfl, ?_, ?_, ?_, fun a ha => ?_⟩
  · rw [hread, if_pos rfl, BitVec.toNat_ofNat, Nat.mod_eq_of_lt (by omega)]
  · rw [hread, if_neg (by omega), if_pos rfl, BitVec.toNat_ofNat, Nat.mod_eq_of_lt (by omega)]
  · rw [hread, if_neg (by omega), if_neg (by omega), if_pos rfl, BitVec.toNat_ofNat, Nat.mod_eq_of_lt (by omega)]
  · rw [hread, if_neg (by omega), if_neg (by omega), if_neg (by omega)]

/-- Settles O49: no check fails, and `V[k]` stands at `i + k`. -/
theorem storeRegisters : Obligations.StoreRegisters := fun _ _ hm hb hi hadv =>
  ⟨_, exec_of_no_fault (faultOf_ldMemVx_of_fits hb hi hadv), rfl, fun _ => read_completed_ldMemVx_of_le hm hb,
    fun _ => read_completed_ldMemVx_of_outside hm hb⟩

/-- Settles O50: the checks are those of `Fx55`, and the registers are those of `completed_ldVxMem_getV`. -/
theorem loadRegisters : Obligations.LoadRegisters := fun s x hb hi hadv =>
  ⟨_, exec_of_no_fault ((faultOf_ldVxMem x).trans (faultOf_ldMemVx_of_fits hb hi hadv)), rfl,
    completed_ldVxMem_getV s x⟩

end Sys2Proof.Machine
end

section
/-! The display (R260 to R266, R270): which instructions write it, and what a blit does when it is repeated, when
its sprite is all zero, and when its origin lies beyond the display. -/

namespace Sys2Proof.Machine

variable {s : State} {i : Instr} {rows : List Byte} {ox ox' oy oy' : Byte}

/-- But for `00E0` and `Dxyn` a completed instruction keeps the display (R260). -/
theorem completed_fb (h : writesDisplay i = false) : (completed i s).fb = s.fb := by
  cases i with
  | cls => cases h
  | drw x y n => cases h
  | _ => simp [completed]

/-! ## A blit that is repeated (R266) -/

/-- Where the first blit laid a 1 bit the second finds the pixel inverted. -/
theorem pixel_blit_and_spriteAt_iff (h : rows.length ≤ 32) (ox oy : Byte) (fb : Fb) (r : Fin 32) (c : Fin 64) :
    pixel (blit rows ox oy fb).fb r c = true ∧ spriteAt rows ox oy r c = true ↔
      pixel fb r c = false ∧ spriteAt rows ox oy r c = true := by
  rw [pixel_blit h]
  refine and_congr_left fun hbit => ?_
  rw [hbit, Bool.xor_true, Bool.not_eq_true']

/-! ## No collision, and a sprite of zero bytes (R263, R266) -/

theorem collision_blit_eq_false {fb : Fb} (h : rows.length ≤ 32)
    (hoff : ∀ r c, ¬(pixel fb r c = true ∧ spriteAt rows ox oy r c = true)) :
    (blit rows ox oy fb).collision = false :=
  Bool.eq_false_iff.2 fun hcol =>
    have ⟨r, c, hlit⟩ := (collision_blit h ox oy fb).1 hcol
    hoff r c hlit

theorem getD_zero_of_forall_zero (h : ∀ row ∈ rows, row = 0) (j : Nat) : rows.getD j 0 = 0 := by
  by_cases hj : j < rows.length
  · rw [List.getD_eq_getElem _ _ hj]
    exact h _ (List.getElem_mem hj)
  · exact List.getD_eq_default _ _ (Nat.not_lt.1 hj)

theorem spriteAt_of_forall_zero (h : ∀ row ∈ rows, row = 0) (ox oy : Byte) (r : Fin 32) (c : Fin 64) :
    spriteAt rows ox oy r c = false := by
  rw [spriteAt, getD_zero_of_forall_zero h]
  simp

theorem blit_of_no_spriteAt (h : rows.length ≤ 32) (hbit : ∀ r c, spriteAt rows ox oy r c = false) (fb : Fb) :
    blit rows ox oy fb = ⟨fb, false⟩ := by
  have hfb : (blit rows ox oy fb).fb = fb := fb_ext fun r c => by rw [pixel_blit h, hbit, Bool.xor_false]
  have hcol : (blit rows ox oy fb).collision = false :=
    collision_blit_eq_false h fun r c hlit => by rw [hbit] at hlit; cases hlit.2
  exact congrArg₂ Drawing.mk hfb hcol

/-! ## The origin (R264) -/

theorem spriteCol_add_64 (ox : Byte) (b : Nat) : spriteCol (ox + 64) b = spriteCol ox b := by
  simp only [spriteCol, Fin.ext_iff, Fin.val_ofNat, BitVec.toNat_add, BitVec.reduceToNat]
  omega

theorem spriteRow_add_32 (oy : Byte) (j : Nat) : spriteRow (oy + 32) j = spriteRow oy j := by
  simp only [spriteRow, Fin.ext_iff, Fin.val_ofNat, BitVec.toNat_add, BitVec.reduceToNat]
  omega

/-- A blit reads its origin through the columns and rows of its bits alone. -/
theorem blitRows_congr (hcol : ∀ b, spriteCol ox b = spriteCol ox' b) (hrow : ∀ j, spriteRow oy j = spriteRow oy' j)
    (j : Nat) (rows : List Byte) (d : Drawing) : blitRows ox oy j rows d = blitRows ox' oy' j rows d := by
  induction rows generalizing j d with
  | nil => rfl
  | cons row rows ih => simp only [blitRows, blitRow, hcol, hrow, ih]

end Sys2Proof.Machine

namespace Sys2Proof.Machine

/-- Settles O26: a frame of the completed state, which a fault keeps as well. -/
theorem onlyDisplayInstructionsWriteDisplay : Obligations.OnlyDisplayInstructionsWriteDisplay := by
  intro i s t hi h r c
  rw [exec_keeps State.fb (fun _ => rfl) (completed_fb hi) h]

/-- Settles O53: the one check is the carry of `pc + 2`. -/
theorem clearScreen : Obligations.ClearScreen := fun _ hadv =>
  ⟨_, exec_of_no_fault (carries_fits hadv), rfl, pixel_clear⟩

/-- Settles O55: both blits XOR the display with the same pattern, whatever the number of rows. -/
theorem blitTwiceRestoresDisplay : Obligations.BlitTwiceRestoresDisplay := by
  intro rows ox oy fb
  obtain ⟨pattern, hpattern⟩ := blitRows_pattern ox oy 0 rows
  refine fb_ext fun r c => ?_
  rw [blit, hpattern, blit, hpattern, Bool.xor_assoc, Bool.xor_self, Bool.xor_false]

/-- Settles O56: the closed form of a blit, applied once and twice. -/
theorem blitCollisionLaws : Obligations.BlitCollisionLaws := by
  intro rows ox oy fb h
  refine ⟨collision_blit h ox oy fb, ?again,
    fun hz => blit_of_no_spriteAt h (spriteAt_of_forall_zero hz ox oy) fb, ?clear⟩
  case again =>
    rw [collision_blit h]
    exact exists₂_congr (pixel_blit_and_spriteAt_iff h ox oy fb)
  case clear =>
    exact collision_blit_eq_false h fun r c hlit => by rw [pixel_clear] at hlit; cases hlit.1

/-- Settles O57: the columns and rows of the bits are those of the reduced origin. -/
theorem blitOriginWraps : Obligations.BlitOriginWraps := fun rows ox oy fb =>
  ⟨blitRows_congr (spriteCol_add_64 ox) (fun _ => rfl) 0 rows ⟨fb, false⟩,
    blitRows_congr (fun _ => rfl) (spriteRow_add_32 oy) 0 rows ⟨fb, false⟩⟩

end Sys2Proof.Machine
end

section
/-! The timer and key-wait hooks (R290 to R295): what any of them leaves where `pc + 2` does not fault. -/

namespace Sys2Proof.Machine

variable {s : State} {e : HookEvent}

/-- A hook leaves its event on the list and writes nothing else but `pc` (R295). -/
theorem hook_of_fits (h : CanAdvance s) :
    hook e s = .next { s with pc := s.pc + 2, hooks := s.hooks ++ [e] } :=
  advance_of_fits h

end Sys2Proof.Machine

namespace Sys2Proof.Machine

/-- Settles O58: the four are one hook each, which differ in the event alone. -/
theorem hooksOnlyEmitEvents : Obligations.HooksOnlyEmitEvents := fun _ _ hadv =>
  ⟨hook_of_fits hadv, hook_of_fits hadv, hook_of_fits hadv, hook_of_fits hadv⟩

end Sys2Proof.Machine
end

section
/-! The faults (R333, R335): every fault a step takes is exact, and what exactness says of its kind under the
default address and stack parameters. -/

namespace Sys2Proof.Machine

variable {s t : State} {i : Instr} {f : Fault}

/-- The fault an instruction leaves in a clear latch is that of its first failing check. -/
theorem faultOf_eq_some_of_exec_fault (hr : Running s) (h : exec i s = .next t) (hf : t.fault = some f) :
    faultOf i s = some f := by
  obtain ⟨-, rfl⟩ | ⟨g, hg, rfl⟩ := exec_cases h
  · rw [(completed_fault_cfg i s).1, hr] at hf
    cases hf
  · cases hf; exact hg

/-- The fault a step takes, in fetch, decode or execute, is exact. -/
theorem faultExact_of_step (hs : StackBounded s) (h : step s = .next t) (hf : t.fault = some f) :
    FaultExact s f := by
  obtain ⟨hr, ⟨-, rfl⟩ | ⟨-, -, rfl⟩ | ⟨-, i, -, he⟩⟩ := step_cases h
  · cases hf; rfl
  · cases hf; rfl
  · exact faultOf_exact hs (faultOf_eq_some_of_exec_fault hr he hf)

theorem stackBounded_of_unbounded (h : s.cfg.stackDepth = none) : StackBounded s := fun depth hd => by
  cases h.symm.trans hd

/-- A full stack and a carry that faults are not exact under the defaults (R333). -/
theorem FaultExact.code_mem (h : FaultExact s f) (hwrap : s.cfg.addrOverflow = .wrap12)
    (hdepth : s.cfg.stackDepth = none) : f.code ∈ [1, 2, 3, 5] := by
  cases f with
  | stackOverflow => cases hdepth.symm.trans h
  | addressCarry => cases hwrap.symm.trans h
  | _ => simp [Fault.code]

theorem FaultExact.keyOor_of_code (h : FaultExact s f) (hcode : f.code = 5) : s.cfg.keyOor = .fault := by
  cases f with
  | keyOutOfRange k =>
    obtain ⟨-, hkey, -⟩ := h
    exact hkey
  | _ => cases hcode

end Sys2Proof.Machine

namespace Sys2Proof.Machine

/-- Settles O19: the fault is exact (`faultExact_of_step`), which the defaults and `KEY_OOR` bound by kind. -/
theorem faultKindsUnderDefaults : Obligations.FaultKindsUnderDefaults := by
  intro s t f _ hwrap hdepth hstep hf
  have hexact : FaultExact s f := faultExact_of_step (stackBounded_of_unbounded hdepth) hstep hf
  exact ⟨hexact.code_mem hwrap hdepth, hexact.keyOor_of_code⟩

/-- Settles O14: the fetch is in bounds, and the fault is that of `step_of_decode_error`. -/
theorem illegalWordFaults : Obligations.IllegalWordFaults := fun _ _ hr hpc hd =>
  step_of_decode_error hr hpc hd

end Sys2Proof.Machine
end
